-- ==== Sys2Proof/Word.lean ====
section
/-! DEFINITION. The value types of the block (00_scope.md R9, R12): every value is an unsigned integer of a
stated width. -/

namespace Sys2Proof

/-- A register, timer, memory or immediate byte (`REG_W`, `TIMER_W`, R9). -/
abbrev Byte := BitVec 8

/-- A 16-bit word: an opcode word, `PC`, `I`, a stack entry, an address (R9). -/
abbrev Word := BitVec 16

/-- The 12-bit address field `nnn` (R16). -/
abbrev Addr12 := BitVec 12

/-- The number of a general register, 0-15 (R16, R20). -/
abbrev Reg := Fin 16

/-- Register 0xF, the flag register VF (R21). -/
abbrev VF : Reg := 15

/-- `zext_16(v)` of R12. -/
abbrev zext16 {w : Nat} (v : BitVec w) : Word := v.setWidth 16

end Sys2Proof
end

