-- ==== Sys2Proof/Syntax.lean ====
section
/-! DEFINITION. The instructions, one constructor per row of spec/opcode_table.json, with the operand fields of
30_encoding.md R71 and R72. -/

namespace Sys2Proof

/-- The 34 instructions of R2. `x` and `y` are register numbers, `kk` an immediate byte, `nnn` a 12-bit address and
`n` a count of rows (R16). -/
inductive Instr where
  /-- 00E0 (R100) -/
  | cls
  /-- 00EE (R120) -/
  | ret
  /-- 1nnn (R121) -/
  | jp (nnn : Addr12)
  /-- 2nnn (R122) -/
  | call (nnn : Addr12)
  /-- 3xkk (R125) -/
  | seImm (x : Reg) (kk : Byte)
  /-- 4xkk (R126) -/
  | sneImm (x : Reg) (kk : Byte)
  /-- 5xy0 (R127) -/
  | seReg (x y : Reg)
  /-- 6xkk (R150) -/
  | ldImm (x : Reg) (kk : Byte)
  /-- 7xkk (R151) -/
  | addImm (x : Reg) (kk : Byte)
  /-- 8xy0 (R152) -/
  | ldReg (x y : Reg)
  /-- 8xy1 (R153) -/
  | orReg (x y : Reg)
  /-- 8xy2 (R154) -/
  | andReg (x y : Reg)
  /-- 8xy3 (R155) -/
  | xorReg (x y : Reg)
  /-- 8xy4 (R156) -/
  | addReg (x y : Reg)
  /-- 8xy5 (R157) -/
  | subReg (x y : Reg)
  /-- 8xy6 (R158): `y` is encoded but not read -/
  | shr (x y : Reg)
  /-- 8xy7 (R159) -/
  | subnReg (x y : Reg)
  /-- 8xyE (R160): `y` is encoded but not read -/
  | shl (x y : Reg)
  /-- 9xy0 (R128) -/
  | sneReg (x y : Reg)
  /-- Annn (R180) -/
  | ldI (nnn : Addr12)
  /-- Bnnn (R129) -/
  | jpV0 (nnn : Addr12)
  /-- Cxkk (R161) -/
  | rnd (x : Reg) (kk : Byte)
  /-- Dxyn (R101) -/
  | drw (x y : Reg) (n : Nat)
  /-- Ex9E (R201) -/
  | skp (x : Reg)
  /-- ExA1 (R202) -/
  | sknp (x : Reg)
  /-- Fx07 (R203) -/
  | ldVxDT (x : Reg)
  /-- Fx0A (R204) -/
  | ldVxK (x : Reg)
  /-- Fx15 (R205) -/
  | ldDTVx (x : Reg)
  /-- Fx18 (R206) -/
  | ldSTVx (x : Reg)
  /-- Fx1E (R181) -/
  | addI (x : Reg)
  /-- Fx29 (R182) -/
  | ldF (x : Reg)
  /-- Fx33 (R183) -/
  | ldB (x : Reg)
  /-- Fx55 (R184): `x` is the number of the last register stored -/
  | stMem (x : Reg)
  /-- Fx65 (R185): `x` is the number of the last register loaded -/
  | ldMem (x : Reg)
  deriving DecidableEq, Repr

end Sys2Proof
end

