-- ==== Sys2Proof/Decode.lean ====
section
/-! DEFINITION. The decoder of 30_encoding.md R70-R88 and, after it, the encoder that emits the canonical word of
each instruction (R90). -/

namespace Sys2Proof

/-! ### Fields (R16, R72) -/

/-- The family, `OP[15:12]` (R76). -/
def family (op : Word) : BitVec 4 := op.extractLsb' 12 4

/-- The low nibble, `OP[3:0]` (R77-R79). -/
def lowNibble (op : Word) : BitVec 4 := op.extractLsb' 0 4

/-- `x = OP[11:8]`. -/
def fieldX (op : Word) : Reg := ⟨(op.extractLsb' 8 4).toNat, (op.extractLsb' 8 4).isLt⟩

/-- `y = OP[7:4]`. -/
def fieldY (op : Word) : Reg := ⟨(op.extractLsb' 4 4).toNat, (op.extractLsb' 4 4).isLt⟩

/-- `n = OP[3:0]`. -/
def fieldN (op : Word) : Nat := (op.extractLsb' 0 4).toNat

/-- `kk = OP[7:0]`. -/
def fieldKK (op : Word) : Byte := op.extractLsb' 0 8

/-- `nnn = OP[11:0]`. -/
def fieldNNN (op : Word) : Addr12 := op.extractLsb' 0 12

/-! ### The decoder (R88) -/

/-- Why bytes give no instruction. -/
inductive DecodeReject where
  /-- The word is one of the 12,912 unrecognised words (R85): a no-op with a diagnostic (R84). -/
  | unrecognized (op : Word)
  /-- Fewer than the two bytes of a word (R70); the machine's fetch always supplies two. -/
  | tooShort
  deriving DecidableEq, Repr

/-- Family 0x0 dispatches on the low nibble (R77). -/
def decode0 (op : Word) : Except DecodeReject Instr :=
  match lowNibble op with
  | 0x0#4 => .ok .cls
  | 0xE#4 => .ok .ret
  | _ => .error (.unrecognized op)

/-- Family 0x8 dispatches on the low nibble (R78). -/
def decode8 (op : Word) : Except DecodeReject Instr :=
  match lowNibble op with
  | 0x0#4 => .ok (.ldReg (fieldX op) (fieldY op))
  | 0x1#4 => .ok (.orReg (fieldX op) (fieldY op))
  | 0x2#4 => .ok (.andReg (fieldX op) (fieldY op))
  | 0x3#4 => .ok (.xorReg (fieldX op) (fieldY op))
  | 0x4#4 => .ok (.addReg (fieldX op) (fieldY op))
  | 0x5#4 => .ok (.subReg (fieldX op) (fieldY op))
  | 0x6#4 => .ok (.shr (fieldX op) (fieldY op))
  | 0x7#4 => .ok (.subnReg (fieldX op) (fieldY op))
  | 0xE#4 => .ok (.shl (fieldX op) (fieldY op))
  | _ => .error (.unrecognized op)

/-- Family 0xE dispatches on the low nibble (R79). -/
def decodeE (op : Word) : Except DecodeReject Instr :=
  match lowNibble op with
  | 0xE#4 => .ok (.skp (fieldX op))
  | 0x1#4 => .ok (.sknp (fieldX op))
  | _ => .error (.unrecognized op)

/-- Family 0xF dispatches on the low byte (R80). -/
def decodeF (op : Word) : Except DecodeReject Instr :=
  match fieldKK op with
  | 0x07#8 => .ok (.ldVxDT (fieldX op))
  | 0x0A#8 => .ok (.ldVxK (fieldX op))
  | 0x15#8 => .ok (.ldDTVx (fieldX op))
  | 0x18#8 => .ok (.ldSTVx (fieldX op))
  | 0x1E#8 => .ok (.addI (fieldX op))
  | 0x29#8 => .ok (.ldF (fieldX op))
  | 0x33#8 => .ok (.ldB (fieldX op))
  | 0x55#8 => .ok (.stMem (fieldX op))
  | 0x65#8 => .ok (.ldMem (fieldX op))
  | _ => .error (.unrecognized op)

/-- `Decode(op)` of R88: total on all 65,536 words. -/
def decode (op : Word) : Except DecodeReject Instr :=
  match family op with
  | 0x0#4 => decode0 op
  | 0x1#4 => .ok (.jp (fieldNNN op))
  | 0x2#4 => .ok (.call (fieldNNN op))
  | 0x3#4 => .ok (.seImm (fieldX op) (fieldKK op))
  | 0x4#4 => .ok (.sneImm (fieldX op) (fieldKK op))
  | 0x5#4 => .ok (.seReg (fieldX op) (fieldY op))
  | 0x6#4 => .ok (.ldImm (fieldX op) (fieldKK op))
  | 0x7#4 => .ok (.addImm (fieldX op) (fieldKK op))
  | 0x8#4 => decode8 op
  | 0x9#4 => .ok (.sneReg (fieldX op) (fieldY op))
  | 0xA#4 => .ok (.ldI (fieldNNN op))
  | 0xB#4 => .ok (.jpV0 (fieldNNN op))
  | 0xC#4 => .ok (.rnd (fieldX op) (fieldKK op))
  | 0xD#4 => .ok (.drw (fieldX op) (fieldY op) (fieldN op))
  | 0xE#4 => decodeE op
  | _ => decodeF op

/-- The word of two bytes fetched in order: the byte at the lower address is `OP[15:8]` (R53). -/
def wordOfBytes (hi lo : Byte) : Word := hi ++ lo

/-- The byte of a word that lies at the lower address (R53). -/
def highByte (w : Word) : Byte := w.extractLsb' 8 8

/-- The byte of a word that lies at the higher address (R53). -/
def lowByte (w : Word) : Byte := w.extractLsb' 0 8

/-- Decode from a stream of bytes: the instruction and the rest, always two bytes further on (R70). -/
def decodeBytes : List Byte → Except DecodeReject (Instr × List Byte)
  | hi :: lo :: rest => (decode (wordOfBytes hi lo)).map fun i => (i, rest)
  | [_] => .error .tooShort
  | [] => .error .tooShort

/-! ### The encoder (R71, R90) -/

/-- Format `NNN`. -/
def formatNNN (fam : BitVec 4) (nnn : Addr12) : Word := fam ++ nnn

/-- Format `XKK`; format `X` and `F` are its words with a fixed low byte. -/
def formatXKK (fam : BitVec 4) (x : Reg) (kk : Byte) : Word := fam ++ BitVec.ofNat 4 x.val ++ kk

/-- Formats `XY` and `XYN`. -/
def formatXYN (fam : BitVec 4) (x y : Reg) (n : BitVec 4) : Word :=
  fam ++ BitVec.ofNat 4 x.val ++ BitVec.ofNat 4 y.val ++ n

/-- The canonical word of an instruction: the spelling of the source's pattern (R86, R90). -/
def encode : Instr → Word
  | .cls => 0x00E0
  | .ret => 0x00EE
  | .jp nnn => formatNNN 0x1 nnn
  | .call nnn => formatNNN 0x2 nnn
  | .seImm x kk => formatXKK 0x3 x kk
  | .sneImm x kk => formatXKK 0x4 x kk
  | .seReg x y => formatXYN 0x5 x y 0x0
  | .ldImm x kk => formatXKK 0x6 x kk
  | .addImm x kk => formatXKK 0x7 x kk
  | .ldReg x y => formatXYN 0x8 x y 0x0
  | .orReg x y => formatXYN 0x8 x y 0x1
  | .andReg x y => formatXYN 0x8 x y 0x2
  | .xorReg x y => formatXYN 0x8 x y 0x3
  | .addReg x y => formatXYN 0x8 x y 0x4
  | .subReg x y => formatXYN 0x8 x y 0x5
  | .shr x y => formatXYN 0x8 x y 0x6
  | .subnReg x y => formatXYN 0x8 x y 0x7
  | .shl x y => formatXYN 0x8 x y 0xE
  | .sneReg x y => formatXYN 0x9 x y 0x0
  | .ldI nnn => formatNNN 0xA nnn
  | .jpV0 nnn => formatNNN 0xB nnn
  | .rnd x kk => formatXKK 0xC x kk
  | .drw x y n => formatXYN 0xD x y (BitVec.ofNat 4 n)
  | .skp x => formatXKK 0xE x 0x9E
  | .sknp x => formatXKK 0xE x 0xA1
  | .ldVxDT x => formatXKK 0xF x 0x07
  | .ldVxK x => formatXKK 0xF x 0x0A
  | .ldDTVx x => formatXKK 0xF x 0x15
  | .ldSTVx x => formatXKK 0xF x 0x18
  | .addI x => formatXKK 0xF x 0x1E
  | .ldF x => formatXKK 0xF x 0x29
  | .ldB x => formatXKK 0xF x 0x33
  | .stMem x => formatXKK 0xF x 0x55
  | .ldMem x => formatXKK 0xF x 0x65

/-- The two bytes of an instruction in the order they lie in memory (R53). -/
def encodeBytes (i : Instr) : List Byte := [highByte (encode i), lowByte (encode i)]

/-- The word that a number `w` of `nbits` bits stands for, every bit above `nbits` zero (log entry 14). -/
def tableWord (nbits w : Nat) : Word := BitVec.ofNat 16 (w % 2 ^ nbits)

/-- The instruction the decoder reads from a word of the opcode table, its two bytes laid out as memory holds
them (R53). -/
def decodeTableWord (nbits w : Nat) : Option Instr :=
  match decodeBytes [highByte (tableWord nbits w), lowByte (tableWord nbits w)] with
  | .ok (i, _) => some i
  | .error _ => none

end Sys2Proof
end

