-- ==== Sys2Proof/Config.lean ====
section
/-! DEFINITION. What the spec fixes for the block (00_scope.md R9), the model parameters it leaves to a model (R10)
and the free value of a tick (R18). -/

namespace Sys2Proof

/-- `OOB_POLICY` (R10, R52): what an access at an address ≥ 0x1000 does. -/
inductive OobPolicy where
  | wrap
  | fault
  deriving DecidableEq, Repr

/-- `STACK_POLICY` (R10, R120, R122): what a 17th nested call or a return with no call outstanding does. -/
inductive StackPolicy where
  | wrap
  | fault
  deriving DecidableEq, Repr

/-- `KEY_POLICY` (R10, R200): what a key test with a register value above 15 does. -/
inductive KeyPolicy where
  | lowNibble
  | fault
  deriving DecidableEq, Repr

/-- The 80 bytes of `FONT` (R9, R36). -/
abbrev Font := Vector Byte 80

/-- The model parameters of R10. -/
structure Params where
  oob : OobPolicy
  stack : StackPolicy
  key : KeyPolicy
  font : Font
  /-- `TICK_RATE`, the host's tick cadence, which no rule reads; none where the host states none (D20, log entry 13) -/
  tickRate : Option Nat
  deriving DecidableEq, Repr

namespace Config

/-- `MEM_SIZE` (R9). -/
def memSize : Nat := 4096

/-- `FONT_BASE` (R9). -/
def fontBase : Nat := 0x050

/-- `FONT_SIZE` (R9). -/
def fontSize : Nat := 80

/-- `ROM_BASE` (R9). -/
def romBase : Nat := 0x200

/-- `ROM_MAX` (R9): 0xFFF - 0x200 + 1. -/
def romMax : Nat := 3584

/-- `RESET_PC` (R9, R23). -/
def resetPc : Word := 0x200

/-- `STACK_DEPTH` (R9). -/
def stackDepth : Nat := 16

/-- The random byte input of the n-th tick (R18, D9). FREE VALUE: no body, so nothing can be proved of which byte
it is (log entry 3). -/
opaque randByte : Nat → Byte

end Config

end Sys2Proof
end

