-- ==== Sys2Proof/Machine/Font.lean ====
section
/-! DEFINITION. The default of the model parameter FONT (10_state.md R36) and the default parameters (00_scope.md R10). -/

namespace Sys2Proof.Machine

/-- The conventional CHIP-8 font, glyphs 0 to F, five bytes each (R36). PRESUMED by the spec itself, "from general
knowledge, not in source" (D11, log entry 2). -/
def defaultFont : Font := #v[
  0xF0, 0x90, 0x90, 0x90, 0xF0,
  0x20, 0x60, 0x20, 0x20, 0x70,
  0xF0, 0x10, 0xF0, 0x80, 0xF0,
  0xF0, 0x10, 0xF0, 0x10, 0xF0,
  0x90, 0x90, 0xF0, 0x10, 0x10,
  0xF0, 0x80, 0xF0, 0x10, 0xF0,
  0xF0, 0x80, 0xF0, 0x90, 0xF0,
  0xF0, 0x10, 0x20, 0x40, 0x40,
  0xF0, 0x90, 0xF0, 0x90, 0xF0,
  0xF0, 0x90, 0xF0, 0x10, 0xF0,
  0xF0, 0x90, 0xF0, 0x90, 0x90,
  0xE0, 0x90, 0xE0, 0x90, 0xE0,
  0xF0, 0x80, 0x80, 0x80, 0xF0,
  0xE0, 0x90, 0x90, 0x90, 0xE0,
  0xF0, 0x80, 0xF0, 0x80, 0xF0,
  0xF0, 0x80, 0xF0, 0x80, 0x80]

/-- The defaults of R10; it gives `TICK_RATE` none. -/
def defaultParams : Params :=
  { oob := .wrap, stack := .wrap, key := .lowNibble, font := defaultFont, tickRate := none }

end Sys2Proof.Machine
end

