-- ==== Sys2Proof/Machine/Memory.lean ====
section
/-! DEFINITION. The 4096-byte memory `M` (20_memory.md R50, R57, R58) as a canonical list of the cells that differ from
their reset value. -/

namespace Sys2Proof.Machine

/-- The bytes that differ from reset, by strictly rising address. -/
abbrev Memory := List Host.Cell

/-- What an unlisted address reads as: the reset contents, `FONT` at 0x050-0x09F and 0 elsewhere (R36, R58). -/
def resetByte (font : Font) (a : Nat) : Byte :=
  if h : Config.fontBase ≤ a ∧ a < Config.fontBase + Config.fontSize then
    font[a - Config.fontBase]'(by simp only [Config.fontBase, Config.fontSize] at h ⊢; omega)
  else 0

/-- The canonical form above an address: strictly rising addresses below `MEM_SIZE`, no entry equal to its reset
byte. -/
def Memory.wfFrom (font : Font) : Nat → Memory → Bool
  | _, [] => true
  | lo, (a, v) :: m => decide (lo ≤ a) && decide (a < Config.memSize) && (v != resetByte font a) && wfFrom font (a + 1) m

/-- The canonical form of memory. -/
def Memory.wf (font : Font) (m : Memory) : Bool := Memory.wfFrom font 0 m

/-- The byte at an address (R57). -/
def Memory.read (font : Font) : Memory → Nat → Byte
  | [], a => resetByte font a
  | (b, w) :: m, a => if a = b then w else Memory.read font m a

/-- Memory with the byte at one address replaced, in canonical form (R57). -/
def Memory.write (font : Font) : Memory → Nat → Byte → Memory
  | [], a, v => if v = resetByte font a then [] else [(a, v)]
  | (b, w) :: m, a, v =>
    if a < b then
      if v = resetByte font a then (b, w) :: m else (a, v) :: (b, w) :: m
    else if a = b then
      if v = resetByte font a then m else (a, v) :: m
    else (b, w) :: Memory.write font m a v

/-- Memory with bytes written at ascending addresses from `a`. -/
def Memory.writeList (font : Font) : Memory → Nat → List Byte → Memory
  | m, _, [] => m
  | m, a, v :: vs => Memory.writeList font (Memory.write font m a v) (a + 1) vs

end Sys2Proof.Machine
end

