-- ==== Sys2Proof/Machine/State.lean ====
section
/-! DEFINITION. The complete state of the block (10_state.md R42), the reasons a step stops, and the state after reset. -/

namespace Sys2Proof.Machine

/-- The model faults of 60_exceptions.md R223, each with its recorded value. -/
inductive FaultKind where
  /-- An access at an address ≥ 0x1000 under `OOB_POLICY = fault` (R52). -/
  | memOutOfRange (a : Word)
  /-- A call with 16 calls outstanding under `STACK_POLICY = fault` (R122). -/
  | stackOverflow
  /-- A return with no call outstanding under `STACK_POLICY = fault` (R120). -/
  | stackUnderflow
  /-- A key test with `V[x]` > 15 under `KEY_POLICY = fault` (R200). -/
  | keyOutOfRange (v : Byte)
  deriving DecidableEq, Repr

/-- `PHASE` (R40); a faulted machine keeps the fault's kind with its recorded value and the fetch address (R223). -/
inductive Phase where
  | boot
  | ready
  | run
  | loadFailed
  | faulted (kind : FaultKind) (fetchedAt : Word)
  deriving DecidableEq, Repr

/-- The diagnostic event `Unrecognized(op, p)` (R221). -/
structure Unrecognized where
  op : Word
  p : Word
  deriving DecidableEq, Repr

/-- The framebuffer: row `y`, column `x` is `VID[y][x]`, true when on (R35). -/
abbrev Video := Vector (Vector Bool 64) 32

/-- The 16 key states, true when pressed (R34). -/
abbrev Keypad := Vector Bool 16

/-- The state of the block (R42), the model parameters it was built with (R10), and two fields of the model's own:
`event`, the output of the last tick (R221), and `ticks`, which numbers the free inputs of R18. -/
structure State where
  /-- `V[0..15]` (R20) -/
  regs : Vector Byte 16
  /-- `I` (R27) -/
  index : Word
  /-- `PC` (R23) -/
  pc : Word
  /-- `SP`, 4 bits (R29) -/
  sp : BitVec 4
  /-- `S[0..15]` (R28) -/
  stack : Vector Word 16
  /-- `DT` (R31) -/
  dt : Byte
  /-- `ST` (R32) -/
  st : Byte
  /-- `M` (R36, R50) -/
  mem : Memory
  /-- `VID` (R35) -/
  video : Video
  /-- `K[0..15]` (R34) -/
  keys : Keypad
  /-- `OP` (R33) -/
  op : Word
  /-- `PHASE` (R40) -/
  phase : Phase
  /-- `DEPTH` (R41) -/
  depth : Nat
  /-- `OOB_POLICY`, `STACK_POLICY`, `KEY_POLICY`, `FONT`, `TICK_RATE` (R10): constant (log entry 1) -/
  params : Params
  /-- the diagnostic event of the last tick, if any (R221, log entry 4) -/
  event : Option Unrecognized
  /-- the number of the next tick's random byte (R18, log entry 3) -/
  ticks : Nat
  deriving DecidableEq, Repr

/-- Why a step stops. -/
inductive Fault where
  /-- `raise Fault(kind)` of R14, answered by the meanings of 2nnn, 00EE, Dxyn, Fx33, Fx55, Fx65, Ex9E and ExA1 under a
  `fault` parameter; the tick undoes itself and moves to phase `Faulted` (R223), so `step` never answers it. Safe. -/
  | raised (kind : FaultKind)
  /-- `step` in a phase that admits no tick, `LoadFailed` or `Faulted` (R40, R89, R253). Safe: the spec gives such a
  machine no further behaviour. -/
  | noTick (phase : Phase)
  deriving DecidableEq, Repr

/-- Why something has no meaning. -/
inductive Refusal where
  /-- An arm of `exec` that has no meaning yet. Safe. No arm answers it now. -/
  | notModelled (mnemonic : String)
  /-- The host operation LoadROM outside phase `Boot`: the host has no such move (R255, 93 item 12). Safe. -/
  | loadRomOutsideBoot
  deriving DecidableEq, Repr

/-- Every pixel off (R35). -/
def Video.blank : Video := Vector.replicate 32 (Vector.replicate 64 false)

/-- The machine right after construction with the given parameters (R42, R250). -/
def State.resetWith (params : Params) : State where
  regs := Vector.replicate 16 0
  index := 0
  pc := Config.resetPc
  sp := 0
  stack := Vector.replicate 16 0
  dt := 0
  st := 0
  mem := []
  video := Video.blank
  keys := Vector.replicate 16 false
  op := 0
  phase := .boot
  depth := 0
  params := params
  event := none
  ticks := 0

/-- The machine right after reset, with the default parameters (R10, R250). -/
def State.reset : State := State.resetWith defaultParams

end Sys2Proof.Machine
end

