-- ==== Sys2Proof/Machine/Ops.lean ====
section
/-! DEFINITION. The named operations over registers, memory, stack, screen and timers that the meanings share, the
fetch, and the taking of a model fault. -/

namespace Sys2Proof.Machine

/-- What a meaning or a step answers. -/
abbrev Answer := Host.Outcome State Fault Refusal

/-- `raise Fault(kind)` (R14). -/
def raise (kind : FaultKind) : Answer := .fault (.raised kind)

/-- A computation that may raise a model fault, as an answer. -/
def answerOf : Except FaultKind State → Answer
  | .ok s => .next s
  | .error k => raise k

namespace State

/-! ### One accessor and one update per component -/

/-- The value of general register `x` (R20). -/
def v (s : State) (x : Reg) : Byte := s.regs[x.val]

/-- `V[x] <- b`. -/
def setV (s : State) (x : Reg) (b : Byte) : State := { s with regs := s.regs.set x.val b }

/-- `I <- a`. -/
def setIndex (s : State) (a : Word) : State := { s with index := a }

/-- `PC <- a`. -/
def setPc (s : State) (a : Word) : State := { s with pc := a }

/-- `SP <- j`. -/
def setSp (s : State) (j : BitVec 4) : State := { s with sp := j }

/-- Stack entry `j` (R28). -/
def stackAt (s : State) (j : BitVec 4) : Word := s.stack[j.toNat]'j.isLt

/-- `S[j] <- a`. -/
def setStackAt (s : State) (j : BitVec 4) (a : Word) : State := { s with stack := s.stack.set j.toNat a j.isLt }

/-- `DT <- b`. -/
def setDt (s : State) (b : Byte) : State := { s with dt := b }

/-- `ST <- b`. -/
def setSt (s : State) (b : Byte) : State := { s with st := b }

/-- The state with another memory. -/
def setMem (s : State) (m : Memory) : State := { s with mem := m }

/-- The state with another framebuffer. -/
def setVideo (s : State) (vid : Video) : State := { s with video := vid }

/-- The state with another keypad (the host's write, R233). -/
def setKeys (s : State) (k : Keypad) : State := { s with keys := k }

/-- `OP <- w`. -/
def setOp (s : State) (w : Word) : State := { s with op := w }

/-- `PHASE <- p`. -/
def setPhase (s : State) (p : Phase) : State := { s with phase := p }

/-- `DEPTH <- d`. -/
def setDepth (s : State) (d : Nat) : State := { s with depth := d }

/-- The tick's output (R221). -/
def setEvent (s : State) (e : Option Unrecognized) : State := { s with event := e }

/-- The number of the next tick's free input. -/
def setTicks (s : State) (n : Nat) : State := { s with ticks := n }

/-- Key `k`, true when pressed (R34). -/
def key (s : State) (k : Fin 16) : Bool := s.keys[k.val]

/-! ### Memory (R51, R52) -/

/-- The byte of memory a 16-bit address reaches, `a[11:0]` (R52). -/
def cellOf (a : Word) : Nat := a.toNat % Config.memSize

/-- The byte of memory at an address of the 4096-byte space. -/
def byteAt (s : State) (a : Nat) : Byte := s.mem.read s.params.font a

/-- Whether an access at `a` raises `MemOutOfRange` (R52). -/
def outOfRange (s : State) (a : Word) : Bool := s.params.oob = .fault ∧ Config.memSize ≤ a.toNat

/-- `MemRead(a, 1)` (R52). -/
def memRead (s : State) (a : Word) : Except FaultKind Byte :=
  if s.outOfRange a then .error (.memOutOfRange a) else .ok (s.byteAt (cellOf a))

/-- `MemWrite(a, 1, b)` (R52). -/
def memWrite (s : State) (a : Word) (b : Byte) : Except FaultKind State :=
  if s.outOfRange a then .error (.memOutOfRange a) else .ok (s.setMem (s.mem.write s.params.font (cellOf a) b))

/-- Reads of `n` bytes at ascending addresses, each mod 2^16, the lowest first (R56, R186). -/
def loadBytes (s : State) (a : Word) : Nat → Except FaultKind (List Byte)
  | 0 => .ok []
  | n + 1 =>
    match s.memRead a with
    | .error k => .error k
    | .ok b =>
      match s.loadBytes (a + 1) n with
      | .error k => .error k
      | .ok bs => .ok (b :: bs)

/-- Writes of bytes at ascending addresses, each mod 2^16, the lowest first (R56, R186). -/
def storeBytes (s : State) (a : Word) : List Byte → Except FaultKind State
  | [] => .ok s
  | b :: bs =>
    match s.memWrite a b with
    | .error k => .error k
    | .ok t => t.storeBytes (a + 1) bs

/-- The bytes of `V[0]` to `V[x]` in order (R184). -/
def regsUpTo (s : State) (x : Reg) : List Byte := s.regs.toList.take (x.val + 1)

/-- `V[j] <- b` for the bytes in order, from register `j` on (R185). -/
def setRegsFrom (s : State) (j : Nat) : List Byte → State
  | [] => s
  | b :: bs => (if h : j < 16 then s.setV ⟨j, h⟩ b else s).setRegsFrom (j + 1) bs

/-! ### Control (R75, R120, R122, R124) -/

/-- `PC <- (PC + 2) mod 2^16`: the tick's advance (R75) and a skip (R124). -/
def advance (s : State) : State := s.setPc (s.pc + 2)

/-- A skip, taken when the condition holds (R124). -/
def skipIf (s : State) (c : Bool) : State := if c then s.advance else s

/-- Push of the already-advanced `PC`: the pointer moves first (R122). -/
def push (s : State) : State := (s.setSp (s.sp + 1)).setStackAt (s.sp + 1) s.pc

/-- Pop into `PC`: the entry is read before the pointer moves and is not cleared (R120). -/
def pop (s : State) : State := (s.setPc (s.stackAt s.sp)).setSp (s.sp - 1)

/-- `DEPTH <- d`, kept under `STACK_POLICY = fault` only (R41, log entry 8). -/
def countDepth (s : State) (d : Nat) : State := if s.params.stack = .fault then s.setDepth d else s

/-! ### The tick's own steps (R74, R83, R223) -/

/-- The opcode word at `PC`, high byte at the lower address (R53, R74). -/
def fetch (s : State) : Except FaultKind Word :=
  match s.memRead s.pc with
  | .error k => .error k
  | .ok hi =>
    match s.memRead (s.pc + 1) with
    | .error k => .error k
    | .ok lo => .ok (wordOfBytes hi lo)

/-- One timer, "decremented toward 0 once per tick when nonzero" (R31, R83). -/
def countDown (t : Byte) : Byte := if t = 0 then 0 else t - 1

/-- The timer step (R83). -/
def timerStep (s : State) : State := (s.setDt (countDown s.dt)).setSt (countDown s.st)

/-- The end of a tick that did not fault: the timer step, `PHASE <- Run` (R89), and the next tick's free input (R18). -/
def endTick (s : State) : State := (s.timerStep.setPhase .run).setTicks (s.ticks + 1)

/-- Taking a model fault, from the state BEFORE the tick: every write of the tick is undone and the phase keeps the
kind, its recorded value and the fetch address; no event comes from a faulting tick (R223, R225). -/
def takeFault (s : State) (k : FaultKind) : State := (s.setPhase (.faulted k s.pc)).setEvent none

/-- The state with a word's two bytes stored where the next fetch reads them (R53, R74). -/
def storeFetchWord (s : State) (w : Word) : State :=
  s.setMem ((s.mem.write s.params.font (cellOf s.pc) (highByte w)).write s.params.font (cellOf (s.pc + 1)) (lowByte w))

end State

/-! ### The screen (R35, R101, R102) -/

namespace Video

/-- `VID[y][x]`. -/
def pixel (vid : Video) (y : Fin 32) (x : Fin 64) : Bool := vid[y.val][x.val]

/-- `VID[y][x] <- b`. -/
def setPixel (vid : Video) (y : Fin 32) (x : Fin 64) (b : Bool) : Video := vid.set y.val (vid[y.val].set x.val b)

/-- One sprite bit of 1 at a pixel, with the collision so far: an on pixel collides, and the pixel inverts (R103). -/
def plot (d : Video × Bool) (y : Fin 32) (x : Fin 64) : Video × Bool :=
  (setPixel d.1 y x (!pixel d.1 y x), d.2 || pixel d.1 y x)

/-- The listed columns of one sprite byte: column `c` is bit `7 - c`, at screen column `(x0 + c) mod 64` (R102). -/
def drawColumns (y : Fin 32) (x0 : Nat) (b : Byte) : List Nat → Video × Bool → Video × Bool
  | [], d => d
  | c :: cs, d => drawColumns y x0 b cs (if b.getLsbD (7 - c) then plot d y (Fin.ofNat 64 (x0 + c)) else d)

/-- The rows of a sprite from screen row `y mod 32` down (R102). -/
def drawRows (x0 : Nat) : Nat → List Byte → Video × Bool → Video × Bool
  | _, [], d => d
  | y, b :: bs, d => drawRows x0 (y + 1) bs (drawColumns (Fin.ofNat 32 y) x0 b (List.range 8) d)

end Video

end Sys2Proof.Machine
end

