-- ==== Sys2Proof/Machine/Flags.lean ====
section
/-! DEFINITION. The values that instructions write to VF (10_state.md R37). -/

namespace Sys2Proof.Machine

/-- A comparison as the byte 1 or 0 (R12). -/
def flagByte (c : Bool) : Byte := if c then 1 else 0

/-- 8xy4: 1 if the unreduced sum exceeds 255 (R156). -/
def carryFlag (a b : Byte) : Byte := flagByte (decide (255 < a.toNat + b.toNat))

/-- 8xy5 and 8xy7: 1 if the first operand is strictly greater (R157, R159). -/
def greaterFlag (a b : Byte) : Byte := flagByte (decide (b.toNat < a.toNat))

/-- 8xy6: the bit shifted out on the right (R158). -/
def rightBitFlag (a : Byte) : Byte := a &&& 1

/-- 8xyE: the bit shifted out on the left (R160). -/
def leftBitFlag (a : Byte) : Byte := (a &&& 0x80) >>> 7

end Sys2Proof.Machine
end

