-- ==== Sys2Proof/Machine/Alu.lean ====
section
/-! DEFINITION. The register and arithmetic family (42_alu.md). Statements run in the written order, each reading the
state the previous one left (00_scope.md R15), which is what decides the cases where `x` or `y` is VF (R163). -/

namespace Sys2Proof.Machine

/-- 6xkk `LD Vx, kk` (R150). -/
def execLdImm (x : Reg) (kk : Byte) (s : State) : Answer := .next (s.setV x kk)

/-- 7xkk `ADD Vx, kk` (R151). -/
def execAddImm (x : Reg) (kk : Byte) (s : State) : Answer := .next (s.setV x (s.v x + kk))

/-- 8xy0 `LD Vx, Vy` (R152). -/
def execLdReg (x y : Reg) (s : State) : Answer := .next (s.setV x (s.v y))

/-- 8xy1 `OR Vx, Vy` (R153). -/
def execOrReg (x y : Reg) (s : State) : Answer := .next (s.setV x (s.v x ||| s.v y))

/-- 8xy2 `AND Vx, Vy` (R154). -/
def execAndReg (x y : Reg) (s : State) : Answer := .next (s.setV x (s.v x &&& s.v y))

/-- 8xy3 `XOR Vx, Vy` (R155). -/
def execXorReg (x y : Reg) (s : State) : Answer := .next (s.setV x (s.v x ^^^ s.v y))

/-- 8xy4 `ADD Vx, Vy` (R156): the sum is taken before VF is written. -/
def execAddReg (x y : Reg) (s : State) : Answer :=
  let sum := s.v x + s.v y
  .next ((s.setV VF (carryFlag (s.v x) (s.v y))).setV x sum)

/-- 8xy5 `SUB Vx, Vy` (R157): the difference reads the registers after VF is written (D7). -/
def execSubReg (x y : Reg) (s : State) : Answer :=
  let t := s.setV VF (greaterFlag (s.v x) (s.v y))
  .next (t.setV x (t.v x - t.v y))

/-- 8xy6 `SHR Vx, Vy` (R158): `V[y]` is not read. -/
def execShr (x _y : Reg) (s : State) : Answer :=
  let t := s.setV VF (rightBitFlag (s.v x))
  .next (t.setV x (t.v x >>> 1))

/-- 8xy7 `SUBN Vx, Vy` (R159): the difference reads the registers after VF is written (D7). -/
def execSubnReg (x y : Reg) (s : State) : Answer :=
  let t := s.setV VF (greaterFlag (s.v y) (s.v x))
  .next (t.setV x (t.v y - t.v x))

/-- 8xyE `SHL Vx, Vy` (R160): `V[y]` is not read. -/
def execShl (x _y : Reg) (s : State) : Answer :=
  let t := s.setV VF (leftBitFlag (s.v x))
  .next (t.setV x (t.v x <<< 1))

/-- Cxkk with a given random byte (R161). -/
def rndWith (rand : Byte) (x : Reg) (kk : Byte) (s : State) : State := s.setV x (rand &&& kk)

/-- Cxkk `RND Vx, kk` (R161), with the tick's free byte (R18, log entry 3). -/
def execRnd (x : Reg) (kk : Byte) (s : State) : Answer := .next (rndWith (Config.randByte s.ticks) x kk s)

end Sys2Proof.Machine
end

