-- ==== Sys2Proof/Machine/Operands.lean ====
section
/-! DEFINITION. The operand forms of the instructions that are more than a field or a register's value. -/

namespace Sys2Proof.Machine

/-- The target of Bnnn, not reduced to 12 bits (R129). -/
def jumpTarget (nnn : Addr12) (v0 : Byte) : Word := zext16 nnn + zext16 v0

/-- The address of the glyph that Fx29 points at: the whole byte is multiplied (R182). -/
def glyphAddress (v : Byte) : Word := BitVec.ofNat 16 (Config.fontBase + 5 * v.toNat)

/-- The hundreds, tens and ones of a byte (R183). -/
def decimalDigits (v : Byte) : List Byte :=
  [BitVec.ofNat 8 (v.toNat / 100), BitVec.ofNat 8 (v.toNat / 10 % 10), BitVec.ofNat 8 (v.toNat % 10)]

/-- The start column of a sprite, `V[x] mod 64` (R101). -/
def spriteColumn (v : Byte) : Nat := v.toNat % 64

/-- The start row of a sprite, `V[y] mod 32` (R101). -/
def spriteRow (v : Byte) : Nat := v.toNat % 32

/-- `KeySel(v)` (R200). -/
def keySel (policy : KeyPolicy) (v : Byte) : Except FaultKind (Fin 16) :=
  if policy = .fault ∧ 15 < v.toNat then .error (.keyOutOfRange v) else .ok (Fin.ofNat 16 v.toNat)

/-- The lowest-numbered pressed key, if any (R204). -/
def lowestPressed (s : State) : Option (Fin 16) := (List.finRange 16).find? s.key

/-- The number of a key as a byte (R204). -/
def keyByte (k : Fin 16) : Byte := BitVec.ofNat 8 k.val

end Sys2Proof.Machine
end

