-- ==== Sys2Proof/Machine/Control.lean ====
section
/-! DEFINITION. The control family (41_control.md). `PC` on entry is the fetched instruction's address plus 2. -/

namespace Sys2Proof.Machine

/-- 00EE `RET` (R120). -/
def execRet (s : State) : Answer :=
  if s.params.stack = .fault ∧ s.depth = 0 then raise .stackUnderflow
  else .next (s.pop.countDepth (s.depth - 1))

/-- 1nnn `JP nnn` (R121). -/
def execJp (nnn : Addr12) (s : State) : Answer := .next (s.setPc (zext16 nnn))

/-- 2nnn `CALL nnn` (R122). -/
def execCall (nnn : Addr12) (s : State) : Answer :=
  if s.params.stack = .fault ∧ s.depth = Config.stackDepth then raise .stackOverflow
  else .next ((s.push.setPc (zext16 nnn)).countDepth (s.depth + 1))

/-- 3xkk `SE Vx, kk` (R125). -/
def execSeImm (x : Reg) (kk : Byte) (s : State) : Answer := .next (s.skipIf (s.v x == kk))

/-- 4xkk `SNE Vx, kk` (R126). -/
def execSneImm (x : Reg) (kk : Byte) (s : State) : Answer := .next (s.skipIf (s.v x != kk))

/-- 5xy0 `SE Vx, Vy` (R127). -/
def execSeReg (x y : Reg) (s : State) : Answer := .next (s.skipIf (s.v x == s.v y))

/-- 9xy0 `SNE Vx, Vy` (R128). -/
def execSneReg (x y : Reg) (s : State) : Answer := .next (s.skipIf (s.v x != s.v y))

/-- Bnnn `JP V0, nnn` (R129). -/
def execJpV0 (nnn : Addr12) (s : State) : Answer := .next (s.setPc (jumpTarget nnn (s.v 0)))

end Sys2Proof.Machine
end

