-- ==== Sys2Proof/Machine/Display.lean ====
section
/-! DEFINITION. The display family (40_display.md): 00E0 and Dxyn. -/

namespace Sys2Proof.Machine

/-- 00E0 `CLS` (R100). -/
def execCls (s : State) : Answer := .next (s.setVideo Video.blank)

/-- The sprite bytes XORed onto the screen from a start position, and the collision (R101, R103). -/
def drawSprite (vid : Video) (x0 y0 : Nat) (bytes : List Byte) : Video × Bool :=
  Video.drawRows x0 y0 bytes (vid, false)

/-- Dxyn `DRW Vx, Vy, n` (R101). The coordinates are read before VF is written (D8). The `n` bytes are read before
the first pixel is drawn, which differs in nothing: memory does not change and a fault undoes the tick (log entry 9). -/
def execDrw (x y : Reg) (n : Nat) (s : State) : Answer :=
  match s.loadBytes s.index n with
  | .error k => raise k
  | .ok bytes =>
    let d := drawSprite s.video (spriteColumn (s.v x)) (spriteRow (s.v y)) bytes
    .next ((s.setVideo d.1).setV VF (flagByte d.2))

end Sys2Proof.Machine
end

