-- ==== Sys2Proof/Machine/IndexMemory.lean ====
section
/-! DEFINITION. The index and memory-block family (43_index_memory.md). None of them changes `I` but Annn, Fx1E and
Fx29 (D15). -/

namespace Sys2Proof.Machine

/-- Annn `LD I, nnn` (R180). -/
def execLdI (nnn : Addr12) (s : State) : Answer := .next (s.setIndex (zext16 nnn))

/-- Fx1E `ADD I, Vx` (R181): mod 2^16, VF not written. -/
def execAddI (x : Reg) (s : State) : Answer := .next (s.setIndex (s.index + zext16 (s.v x)))

/-- Fx29 `LD F, Vx` (R182). -/
def execLdF (x : Reg) (s : State) : Answer := .next (s.setIndex (glyphAddress (s.v x)))

/-- Fx33 `LD B, Vx` (R183). -/
def execLdB (x : Reg) (s : State) : Answer := answerOf (s.storeBytes s.index (decimalDigits (s.v x)))

/-- Fx55 `LD [I], Vx` (R184). -/
def execStMem (x : Reg) (s : State) : Answer := answerOf (s.storeBytes s.index (s.regsUpTo x))

/-- Fx65 `LD Vx, [I]` (R185): no loaded register affects an address. -/
def execLdMem (x : Reg) (s : State) : Answer :=
  match s.loadBytes s.index (x.val + 1) with
  | .error k => raise k
  | .ok bytes => .next (s.setRegsFrom 0 bytes)

end Sys2Proof.Machine
end

