-- ==== Sys2Proof/Machine/KeypadTimer.lean ====
section
/-! DEFINITION. The keypad and timer family (44_keypad_timer.md). -/

namespace Sys2Proof.Machine

/-- Ex9E `SKP Vx` (R201). -/
def execSkp (x : Reg) (s : State) : Answer :=
  match keySel s.params.key (s.v x) with
  | .error k => raise k
  | .ok k => .next (s.skipIf (s.key k))

/-- ExA1 `SKNP Vx` (R202). -/
def execSknp (x : Reg) (s : State) : Answer :=
  match keySel s.params.key (s.v x) with
  | .error k => raise k
  | .ok k => .next (s.skipIf (!s.key k))

/-- Fx07 `LD Vx, DT` (R203). -/
def execLdVxDT (x : Reg) (s : State) : Answer := .next (s.setV x s.dt)

/-- Fx0A `LD Vx, K` (R204): with no key pressed, `PC` goes back to the Fx0A itself. -/
def execLdVxK (x : Reg) (s : State) : Answer :=
  match lowestPressed s with
  | some k => .next (s.setV x (keyByte k))
  | none => .next (s.setPc (s.pc - 2))

/-- Fx15 `LD DT, Vx` (R205). -/
def execLdDTVx (x : Reg) (s : State) : Answer := .next (s.setDt (s.v x))

/-- Fx18 `LD ST, Vx` (R206). -/
def execLdSTVx (x : Reg) (s : State) : Answer := .next (s.setSt (s.v x))

end Sys2Proof.Machine
end

