-- ==== Sys2Proof/Machine/Cycle.lean ====
section
/-! DEFINITION. The tick (30_encoding.md R73, R89): fetch, advance, decode, report or execute, timers; and the undoing
of a tick that raises a model fault (60_exceptions.md R223). -/

namespace Sys2Proof.Machine

/-- Whether a tick may run (R40, R89). -/
def Phase.admitsTick : Phase → Bool
  | .boot => true
  | .ready => true
  | .run => true
  | .loadFailed => false
  | .faulted _ _ => false

/-- Steps 1 and 2 of the tick for a fetched word: the latch and the advance (R74, R75); the tick's output starts
empty. -/
def State.latch (s : State) (w : Word) : State := ((s.setOp w).setEvent none).advance

/-- The end of a tick whose instruction answered, `s` being the state before the tick (R83, R223, log entries 5 and 6). -/
def settle (s : State) : Answer → Answer
  | .next t => .next t.endTick
  | .fault (.raised k) => .next (s.takeFault k)
  | .fault f => .fault f
  | .refused r => .refused r

/-- Steps 3 to 6 of the tick for a fetched word (R76-R84). -/
def runWord (s : State) (w : Word) : Answer :=
  match decode w with
  | .ok i => settle s (exec i (s.latch w))
  | .error _ => .next ((s.latch w).setEvent (some { op := w, p := s.pc })).endTick

/-- One tick (R89). -/
def tick (s : State) : Answer :=
  if s.phase.admitsTick then
    match s.fetch with
    | .error k => .next (s.takeFault k)
    | .ok w => runWord s w
  else .fault (.noTick s.phase)

end Sys2Proof.Machine
end

