-- ==== Sys2Proof/Machine/Step.lean ====
section
/-! DEFINITION. The machine's step, one tick, and where a word is placed so that the next step runs it. -/

namespace Sys2Proof.Machine

/-- One step is one tick (R89, R261). -/
def step (s : State) : Host.Outcome State Fault Refusal := tick s

/-- `s` with a table word's bytes stored where `step` fetches next; nothing else changes (log entry 7). -/
def State.withFetchWord (s : State) (nbits w : Nat) : State := s.storeFetchWord (tableWord nbits w)

end Sys2Proof.Machine
end

