-- ==== Sys2Proof/Machine/HostInterface.lean ====
section
/-! DEFINITION. The host's operations between ticks (60_exceptions.md R233): LoadROM, the keypad write, the video read. -/

namespace Sys2Proof.Machine

/-- What LoadROM gives back to the host (R233, R252). -/
inductive LoadResult where
  | success
  | romLoadError
  deriving DecidableEq, Repr

/-- LoadROM (R252): once, in phase `Boot` only (R255). `readable` says whether the host could read the source. -/
def loadRom (readable : Bool) (bytes : List Byte) (s : State) : Host.Outcome (LoadResult × State) Fault Refusal :=
  if s.phase = .boot then
    if readable ∧ bytes.length ≤ Config.romMax then
      .next (.success, (s.setMem (s.mem.writeList s.params.font Config.romBase bytes)).setPhase .ready)
    else .next (.romLoadError, s.setPhase .loadFailed)
  else .refused .loadRomOutsideBoot

/-- The host's write of all 16 key levels (R34, R233). -/
def writeKeypad (keys : Keypad) (s : State) : State := s.setKeys keys

/-- The host's read of the video: 2048 cells, row-major, cell `y·64 + x` being `VID[y][x]` (R35, R233). -/
def readVideo (s : State) : List Bool := s.video.toList.flatMap Vector.toList

/-- What the host may do after construction (R233); reads change nothing. -/
inductive HostMove where
  | loadRom (readable : Bool) (bytes : List Byte)
  | writeKeypad (keys : Keypad)
  | tick
  deriving DecidableEq, Repr

/-- The state after a move of the host. -/
def hostMove : HostMove → State → Answer
  | .loadRom readable bytes, s =>
    match loadRom readable bytes s with
    | .next (_, t) => .next t
    | .fault f => .fault f
    | .refused r => .refused r
  | .writeKeypad keys, s => .next (writeKeypad keys s)
  | .tick, s => step s

/-- Moves of the host in order, stopping at the first that does not answer a next state. -/
def hostMoves : List HostMove → State → Answer
  | [], s => .next s
  | m :: ms, s =>
    match hostMove m s with
    | .next t => hostMoves ms t
    | .fault f => .fault f
    | .refused r => .refused r

end Sys2Proof.Machine
end

