-- ==== Sys2Proof/Safety.lean ====
section
/-! DEFINITION. The terms the claims use: encodings, accessible bytes, frames, the invariant of the machine and the
states the host can bring it to. -/

namespace Sys2Proof

/-- Every word with `OP & mask = match` decodes as the instruction that `mk` makes of its fields (the "Encoding" line
of an instruction's rule). -/
def DecodesAs (mtch mask : Word) (mk : Word → Instr) : Prop :=
  ∀ op : Word, op &&& mask = mtch → decode op = .ok (mk op)

namespace Machine

/-- The address of the `k`-th byte of an access at `a` (R51, R186). -/
abbrev offsetAddr (a : Word) (k : Nat) : Word := a + BitVec.ofNat 16 k

/-- An access to `n` ascending bytes from `a` raises no fault: always under `OOB_POLICY = wrap`, and under `fault` when
every address is in range (R51, R52). -/
abbrev Accessible (s : State) (a : Word) (n : Nat) : Prop :=
  s.params.oob = .fault → ∀ k < n, (offsetAddr a k).toNat < Config.memSize

/-- Byte `k` is the first of `n` ascending bytes from `a` whose access raises `MemOutOfRange` (R52, R225). -/
abbrev FirstOutOfRange (s : State) (a : Word) (n k : Nat) : Prop :=
  s.params.oob = .fault ∧ k < n ∧ Config.memSize ≤ (offsetAddr a k).toNat ∧
    ∀ j < k, (offsetAddr a j).toNat < Config.memSize

/-- Every byte of memory reads as before. -/
def SameMemory (s t : State) : Prop := ∀ a, t.byteAt a = s.byteAt a

/-- Only general registers of `dest` changed: every other register, `PC`, `I`, `SP`, the stack, the timers, the screen,
the keypad, the latch, the bookkeeping and every byte of memory are as before. -/
def OnlyRegs (dest : List Reg) (s t : State) : Prop :=
  t = { s with regs := t.regs } ∧ (∀ j, j ∉ dest → t.v j = s.v j) ∧ SameMemory s t

/-- Only `PC` changed. -/
def OnlyPc (s t : State) : Prop := t = { s with pc := t.pc } ∧ SameMemory s t

/-- Only `I` changed. -/
def OnlyIndex (s t : State) : Prop := t = { s with index := t.index } ∧ SameMemory s t

/-- Only memory changed, and of it only bytes that an access to `n` bytes from `a` reaches. -/
def OnlyBytes (a : Word) (n : Nat) (s t : State) : Prop :=
  t = { s with mem := t.mem } ∧
    ∀ b, (∀ k < n, b ≠ State.cellOf (offsetAddr a k)) → t.byteAt b = s.byteAt b

/-- The sprite of a Dxyn sets the pixel in column `px` of row `py`: byte `r` of the sprite is row `(y0 + r) mod 32`, its
bit `7 - c` column `(x0 + c) mod 64` (R101, R102). -/
def SpriteBit (s : State) (x y : Reg) (n : Nat) (py : Fin 32) (px : Fin 64) : Prop :=
  ∃ r < n, ∃ c < 8, py.val = ((s.v y).toNat % 32 + r) % 32 ∧ px.val = ((s.v x).toNat % 64 + c) % 64 ∧
    (s.byteAt (State.cellOf (offsetAddr s.index r))).getLsbD (7 - c) = true

/-- `PC` after a tick that ran word `w` fetched at `s.pc`, row by row as the table of R25. -/
def pcAfter (s : State) (w : Word) : Word :=
  match decode w with
  | .ok (.seImm x kk) => if s.v x = kk then s.pc + 4 else s.pc + 2
  | .ok (.sneImm x kk) => if s.v x = kk then s.pc + 2 else s.pc + 4
  | .ok (.seReg x y) => if s.v x = s.v y then s.pc + 4 else s.pc + 2
  | .ok (.sneReg x y) => if s.v x = s.v y then s.pc + 2 else s.pc + 4
  | .ok (.skp x) => if s.key (Fin.ofNat 16 (s.v x).toNat) then s.pc + 4 else s.pc + 2
  | .ok (.sknp x) => if s.key (Fin.ofNat 16 (s.v x).toNat) then s.pc + 2 else s.pc + 4
  | .ok (.jp nnn) => zext16 nnn
  | .ok (.call nnn) => zext16 nnn
  | .ok .ret => s.stackAt s.sp
  | .ok (.jpV0 nnn) => BitVec.ofNat 16 (nnn.toNat + (s.v 0).toNat)
  | .ok (.ldVxK _) => if ∃ k, s.key k = true then s.pc + 2 else s.pc
  | _ => s.pc + 2

/-- The condition under which a model fault is raised, with its recorded value (the table of R223). -/
def FaultKind.Raisable (s : State) : FaultKind → Prop
  | .memOutOfRange a => s.params.oob = .fault ∧ Config.memSize ≤ a.toNat
  | .stackOverflow => s.params.stack = .fault ∧ s.depth = Config.stackDepth
  | .stackUnderflow => s.params.stack = .fault ∧ s.depth = 0
  | .keyOutOfRange b => s.params.key = .fault ∧ 15 < b.toNat

/-- The state of the same machine under another `TICK_RATE` (R10). -/
def State.setTickRate (s : State) (rate : Option Nat) : State := { s with params := { s.params with tickRate := rate } }

/-- An answer with its state under another `TICK_RATE`; a stop is as it was. -/
def Answer.setTickRate (rate : Option Nat) : Answer → Answer
  | .next s => .next (s.setTickRate rate)
  | .fault f => .fault f
  | .refused r => .refused r

/-- The invariant of the machine. -/
structure State.Inv (s : State) : Prop where
  /-- memory is in canonical form -/
  memory : s.mem.wf s.params.font = true
  /-- `DEPTH` is in 0..16 (R41) -/
  depthBound : s.depth ≤ Config.stackDepth
  /-- under `STACK_POLICY = fault`, `SP` is the number of calls outstanding mod 16 (R29, R41) -/
  depthIsSp : s.params.stack = .fault → s.sp = BitVec.ofNat 4 s.depth
  /-- under `STACK_POLICY = wrap`, `DEPTH` is not kept (R41) -/
  depthUnkept : s.params.stack = .wrap → s.depth = 0
  /-- a faulted machine records a fault that the parameters allow and the address it fetched from (R223) -/
  faulted : ∀ k p, s.phase = .faulted k p → p = s.pc ∧ k.Raisable s

/-- The states the host can bring a machine built with the given parameters to (R233). -/
inductive Reachable (params : Params) : State → Prop where
  | reset : Reachable params (State.resetWith params)
  | move (m : HostMove) {s t : State} : Reachable params s → hostMove m s = .next t → Reachable params t

/-- Nested calls, one per word: each executes with its already-advanced `PC` holding that word (R122). -/
def nestedCalls (nnn : Addr12) : List Word → State → Answer
  | [], s => .next s
  | w :: ws, s =>
    match exec (.call nnn) (s.setPc w) with
    | .next t => nestedCalls nnn ws t
    | .fault f => .fault f
    | .refused r => .refused r

/-- That many returns, which leave `PC` at the listed words in turn, end in state `t` (R120). -/
def ReturnsTo : List Word → State → State → Prop
  | [], s, t => s = t
  | w :: ws, s, t => ∃ u, exec .ret s = .next u ∧ u.pc = w ∧ ReturnsTo ws u t

end Machine

end Sys2Proof
end

