-- ==== Sys2Proof/Certificates/Slice0/Obligations.lean ====
section
/-! DEFINITION. The statements for the provers, one `def Obligations.<Name> : Prop` each. A statement about an
instruction gives the words that decode as it (its rule's match and mask), the next state its rule gives, and its frame:
what it leaves as it was. `PC` on entry to `exec` is the fetched address plus 2 (R23). -/

open Sys2Proof Sys2Proof.Machine

/-! ### Encoding -/

/-- Words of the decoding vectors (95_test_vectors.md part 2) and of the examples of the instruction rules. -/
def Obligations.VectorWordsDecode : Prop :=
  decode 0x00E0 = .ok .cls ∧ decode 0x0AB0 = .ok .cls ∧ decode 0x0FFE = .ok .ret ∧
  decode 0x0123 = .error (.unrecognized 0x0123) ∧ decode 0x5121 = .ok (.seReg 1 2) ∧
  decode 0x9AB7 = .ok (.sneReg 10 11) ∧ decode 0x812F = .error (.unrecognized 0x812F) ∧
  decode 0x800E = .ok (.shl 0 0) ∧ decode 0xE011 = .ok (.sknp 0) ∧ decode 0xE59E = .ok (.skp 5) ∧
  decode 0xF10B = .error (.unrecognized 0xF10B) ∧ decode 0xF129 = .ok (.ldF 1) ∧ decode 0xFF65 = .ok (.ldMem 15) ∧
  decode 0xD012 = .ok (.drw 0 1 2) ∧ decode 0x2ABC = .ok (.call 0xABC) ∧ decode 0xC30F = .ok (.rnd 3 0x0F)

/-- Decoding what the encoder makes of any well-formed instruction gives it back, as a word and as the two bytes of a
stream (R53, R70, R71, R88, R90). -/
def Obligations.EncodeThenDecodeGivesInstruction : Prop :=
  ∀ i : Instr, i.wellFormed = true →
    decode (encode i) = .ok i ∧ ∀ rest, decodeBytes (encodeBytes i ++ rest) = .ok (i, rest)

/-- Every word that decodes gives a well-formed instruction, whose canonical word decodes to the same one: an aliased
word is the canonical form (R86). -/
def Obligations.AliasesDecodeAsCanonicalWord : Prop :=
  ∀ (op : Word) (i : Instr), decode op = .ok i → i.wellFormed = true ∧ decode (encode i) = decode op

/-- R16: the operand fields are the source's masks and shifts. -/
def Obligations.OperandFieldsAreMasksAndShifts : Prop :=
  ∀ op : Word, (fieldX op).val = ((op &&& 0x0F00) >>> 8).toNat ∧ (fieldY op).val = ((op &&& 0x00F0) >>> 4).toNat ∧
    fieldN op = (op &&& 0x000F).toNat ∧ (fieldKK op).toNat = (op &&& 0x00FF).toNat ∧
    (fieldNNN op).toNat = (op &&& 0x0FFF).toNat

/-- The unrecognised words, family by family as the table of R85 gives them; every other word decodes. -/
def Obligations.UnrecognizedWordsAreThoseListed : Prop :=
  ∀ op : Word,
    (decode op = .error (.unrecognized op) ↔
      (family op = 0x0 ∧ lowNibble op ∉ [0x0#4, 0xE#4]) ∨
      (family op = 0x8 ∧ lowNibble op ∈ [0x8#4, 0x9#4, 0xA#4, 0xB#4, 0xC#4, 0xD#4, 0xF#4]) ∨
      (family op = 0xE ∧ lowNibble op ∉ [0x1#4, 0xE#4]) ∨
      (family op = 0xF ∧
        fieldKK op ∉ [0x07#8, 0x0A#8, 0x15#8, 0x18#8, 0x1E#8, 0x29#8, 0x33#8, 0x55#8, 0x65#8])) ∧
    (decode op = .error (.unrecognized op) ∨ ∃ i, decode op = .ok i)

/-! ### Display family -/

/-- R100: 00E0 turns every pixel off and changes nothing else. -/
def Obligations.ClearScreenTurnsAllPixelsOff : Prop :=
  DecodesAs 0x0000 0xF00F (fun _ => .cls) ∧
  ∀ s : State, ∃ t, exec .cls s = .next t ∧ (∀ y x, Video.pixel t.video y x = false) ∧
    t = { s with video := t.video } ∧ SameMemory s t

/-- R101, R102, R103: Dxyn inverts the pixels that the sprite has a bit of 1 on, sets VF to whether one of them was on,
and changes nothing else; under `OOB_POLICY = fault` its first sprite byte out of range raises the fault. -/
def Obligations.DrawInvertsSpritePixelsAndReportsCollision : Prop :=
  DecodesAs 0xD000 0xF000 (fun op => .drw (fieldX op) (fieldY op) (fieldN op)) ∧
  ∀ (x y : Reg) (n : Nat) (s : State), n < 16 →
    (Accessible s s.index n → ∃ t, exec (.drw x y n) s = .next t ∧
      (∀ py px, Video.pixel t.video py px = true ↔ ¬(Video.pixel s.video py px = true ↔ SpriteBit s x y n py px)) ∧
      ((∃ py px, SpriteBit s x y n py px ∧ Video.pixel s.video py px = true) → t.v VF = 1) ∧
      ((∀ py px, SpriteBit s x y n py px → Video.pixel s.video py px = false) → t.v VF = 0) ∧
      t = { s with regs := t.regs, video := t.video } ∧ (∀ j, j ≠ VF → t.v j = s.v j) ∧ SameMemory s t) ∧
    ∀ k, FirstOutOfRange s s.index n k →
      exec (.drw x y n) s = .fault (.raised (.memOutOfRange (offsetAddr s.index k)))

/-- The self-inverse property of R104, with the collision that R101 and R103 give the second draw: some sprite bit of 1
lies on a pixel that was OFF before the first draw. R104's own wording, "at least one bit of 1", is then the condition
when the pixels under the sprite were all off, and a blank sprite gives VF = 0 on any screen (log entry 12). -/
def Obligations.DrawingTwiceRestoresTheScreen : Prop :=
  ∀ (x y : Reg) (n : Nat) (s : State), n < 16 → Accessible s s.index n →
    ∃ t, exec (.drw x y n) s = .next t ∧
      ∀ u : State, u.video = t.video → u.params = s.params → u.index = s.index → u.v x = s.v x → u.v y = s.v y →
        SameMemory s u →
        ∃ w, exec (.drw x y n) u = .next w ∧ w.video = s.video ∧
          (w.v VF = 1 ∨ w.v VF = 0) ∧
          (w.v VF = 1 ↔ ∃ py px, SpriteBit s x y n py px ∧ Video.pixel s.video py px = false) ∧
          ((∀ py px, SpriteBit s x y n py px → Video.pixel s.video py px = false) →
            (w.v VF = 1 ↔ ∃ py px, SpriteBit s x y n py px)) ∧
          ((∀ py px, ¬SpriteBit s x y n py px) → w.v VF = 0)

/-! ### Control family -/

/-- R120: 00EE takes `PC` from the entry at `SP`, then decrements `SP` mod 16; with no call outstanding under
`STACK_POLICY = fault` it raises the fault. -/
def Obligations.ReturnPopsTheStack : Prop :=
  DecodesAs 0x000E 0xF00F (fun _ => .ret) ∧
  ∀ s : State,
    (¬(s.params.stack = .fault ∧ s.depth = 0) → ∃ t, exec .ret s = .next t ∧
      t.pc = s.stackAt s.sp ∧ t.sp.toNat = (s.sp.toNat + 15) % 16 ∧
      (s.params.stack = .fault → t.depth = s.depth - 1) ∧
      t = { s with pc := t.pc, sp := t.sp, depth := t.depth } ∧ SameMemory s t) ∧
    (s.params.stack = .fault → s.depth = 0 → exec .ret s = .fault (.raised .stackUnderflow))

/-- R122: 2nnn increments `SP` mod 16, stores the advanced `PC` there and jumps; a 17th nested call under
`STACK_POLICY = fault` raises the fault. -/
def Obligations.CallPushesTheAdvancedPc : Prop :=
  DecodesAs 0x2000 0xF000 (fun op => .call (fieldNNN op)) ∧
  ∀ (nnn : Addr12) (s : State),
    (¬(s.params.stack = .fault ∧ s.depth = 16) → ∃ t, exec (.call nnn) s = .next t ∧
      t.sp.toNat = (s.sp.toNat + 1) % 16 ∧ t.stackAt t.sp = s.pc ∧ (∀ j, j ≠ t.sp → t.stackAt j = s.stackAt j) ∧
      t.pc.toNat = nnn.toNat ∧ (s.params.stack = .fault → t.depth = s.depth + 1) ∧
      t = { s with pc := t.pc, sp := t.sp, stack := t.stack, depth := t.depth } ∧ SameMemory s t) ∧
    (s.params.stack = .fault → s.depth = 16 → exec (.call nnn) s = .fault (.raised .stackOverflow))

/-- R123: a return after a call, with `SP` and the stack as the call left them, goes back to the address after the call
and to the old `SP`, and the entry keeps its value. -/
def Obligations.CallThenReturnRoundTrip : Prop :=
  ∀ (nnn : Addr12) (s t u : State), exec (.call nnn) s = .next t → u.sp = t.sp → u.stack = t.stack →
    u.depth = t.depth → u.params = t.params →
    ∃ w, exec .ret u = .next w ∧ w.pc = s.pc ∧ w.sp = s.sp ∧ (s.params.stack = .fault → w.depth = s.depth) ∧
      w.stackAt (s.sp + 1) = s.pc

/-- R30: from any `SP`, up to sixteen nested calls return correctly, in reverse order, to their own return addresses. -/
def Obligations.SixteenNestedCallsReturn : Prop :=
  ∀ (nnn : Addr12) (ws : List Word) (s : State), ws.length ≤ 16 →
    (s.params.stack = .fault → s.depth + ws.length ≤ 16) →
    ∃ t u, nestedCalls nnn ws s = .next t ∧ ReturnsTo ws.reverse t u ∧ u.sp = s.sp ∧
      (s.params.stack = .fault → u.depth = s.depth)

/-- R121: 1nnn sets `PC` to `nnn` and changes nothing else. -/
def Obligations.JumpSetsPc : Prop :=
  DecodesAs 0x1000 0xF000 (fun op => .jp (fieldNNN op)) ∧
  ∀ (nnn : Addr12) (s : State), ∃ t, exec (.jp nnn) s = .next t ∧ t.pc.toNat = nnn.toNat ∧ OnlyPc s t

/-- R129: Bnnn sets `PC` to `nnn + V0` mod 2^16, not reduced to 12 bits. -/
def Obligations.JumpPlusV0SetsPc : Prop :=
  DecodesAs 0xB000 0xF000 (fun op => .jpV0 (fieldNNN op)) ∧
  ∀ (nnn : Addr12) (s : State), ∃ t, exec (.jpV0 nnn) s = .next t ∧
    t.pc.toNat = (nnn.toNat + (s.v 0).toNat) % 65536 ∧ OnlyPc s t

/-- R124, R125, R126: 3xkk adds 2 to the advanced `PC` if `V[x] = kk`, 4xkk if not; nothing else changes. -/
def Obligations.ImmediateSkips : Prop :=
  DecodesAs 0x3000 0xF000 (fun op => .seImm (fieldX op) (fieldKK op)) ∧
  DecodesAs 0x4000 0xF000 (fun op => .sneImm (fieldX op) (fieldKK op)) ∧
  ∀ (x : Reg) (kk : Byte) (s : State),
    (∃ t, exec (.seImm x kk) s = .next t ∧ OnlyPc s t ∧
      t.pc.toNat = if (s.v x).toNat = kk.toNat then (s.pc.toNat + 2) % 65536 else s.pc.toNat) ∧
    (∃ t, exec (.sneImm x kk) s = .next t ∧ OnlyPc s t ∧
      t.pc.toNat = if (s.v x).toNat = kk.toNat then s.pc.toNat else (s.pc.toNat + 2) % 65536)

/-- R124, R127, R128: 5xy_ skips if `V[x] = V[y]`, 9xy_ if not, whatever the low nibble; nothing else changes. -/
def Obligations.RegisterSkips : Prop :=
  DecodesAs 0x5000 0xF000 (fun op => .seReg (fieldX op) (fieldY op)) ∧
  DecodesAs 0x9000 0xF000 (fun op => .sneReg (fieldX op) (fieldY op)) ∧
  ∀ (x y : Reg) (s : State),
    (∃ t, exec (.seReg x y) s = .next t ∧ OnlyPc s t ∧
      t.pc.toNat = if (s.v x).toNat = (s.v y).toNat then (s.pc.toNat + 2) % 65536 else s.pc.toNat) ∧
    (∃ t, exec (.sneReg x y) s = .next t ∧ OnlyPc s t ∧
      t.pc.toNat = if (s.v x).toNat = (s.v y).toNat then s.pc.toNat else (s.pc.toNat + 2) % 65536)

/-! ### Register and arithmetic family -/

/-- R150, R152: 6xkk loads `kk`, 8xy0 copies `V[y]`; only `V[x]` changes. -/
def Obligations.RegisterLoads : Prop :=
  DecodesAs 0x6000 0xF000 (fun op => .ldImm (fieldX op) (fieldKK op)) ∧
  DecodesAs 0x8000 0xF00F (fun op => .ldReg (fieldX op) (fieldY op)) ∧
  (∀ (x : Reg) (kk : Byte) (s : State), ∃ t, exec (.ldImm x kk) s = .next t ∧ t.v x = kk ∧ OnlyRegs [x] s t) ∧
  (∀ (x y : Reg) (s : State), ∃ t, exec (.ldReg x y) s = .next t ∧ t.v x = s.v y ∧ OnlyRegs [x] s t)

/-- R151: 7xkk adds mod 256 and writes no flag. -/
def Obligations.AddImmediateWraps : Prop :=
  DecodesAs 0x7000 0xF000 (fun op => .addImm (fieldX op) (fieldKK op)) ∧
  ∀ (x : Reg) (kk : Byte) (s : State), ∃ t, exec (.addImm x kk) s = .next t ∧
    (t.v x).toNat = ((s.v x).toNat + kk.toNat) % 256 ∧ OnlyRegs [x] s t

/-- R153, R154, R155: the bitwise operations, bit by bit; only `V[x]` changes. -/
def Obligations.BitwiseOperations : Prop :=
  DecodesAs 0x8001 0xF00F (fun op => .orReg (fieldX op) (fieldY op)) ∧
  DecodesAs 0x8002 0xF00F (fun op => .andReg (fieldX op) (fieldY op)) ∧
  DecodesAs 0x8003 0xF00F (fun op => .xorReg (fieldX op) (fieldY op)) ∧
  ∀ (x y : Reg) (s : State),
    (∃ t, exec (.orReg x y) s = .next t ∧ OnlyRegs [x] s t ∧
      ∀ b, (t.v x).getLsbD b = ((s.v x).getLsbD b || (s.v y).getLsbD b)) ∧
    (∃ t, exec (.andReg x y) s = .next t ∧ OnlyRegs [x] s t ∧
      ∀ b, (t.v x).getLsbD b = ((s.v x).getLsbD b && (s.v y).getLsbD b)) ∧
    (∃ t, exec (.xorReg x y) s = .next t ∧ OnlyRegs [x] s t ∧
      ∀ b, (t.v x).getLsbD b = ((s.v x).getLsbD b ^^ (s.v y).getLsbD b))

/-- R156: 8xy4 adds mod 256; VF is the carry of the old operands, unless the result replaces it. -/
def Obligations.AddRegistersSetsCarry : Prop :=
  DecodesAs 0x8004 0xF00F (fun op => .addReg (fieldX op) (fieldY op)) ∧
  ∀ (x y : Reg) (s : State), ∃ t, exec (.addReg x y) s = .next t ∧
    (t.v x).toNat = ((s.v x).toNat + (s.v y).toNat) % 256 ∧
    (x ≠ VF → (t.v VF).toNat = if (s.v x).toNat + (s.v y).toNat > 255 then 1 else 0) ∧ OnlyRegs [x, VF] s t

/-- R157, R159: 8xy5 and 8xy7 write the strict comparison to VF, then subtract mod 256 reading the registers after that
write: an operand that is VF is the new flag. -/
def Obligations.SubtractionsSetGreaterFlag : Prop :=
  DecodesAs 0x8005 0xF00F (fun op => .subReg (fieldX op) (fieldY op)) ∧
  DecodesAs 0x8007 0xF00F (fun op => .subnReg (fieldX op) (fieldY op)) ∧
  ∀ (x y : Reg) (s : State),
    (∃ t c, exec (.subReg x y) s = .next t ∧ c = (if (s.v x).toNat > (s.v y).toNat then 1 else 0) ∧
      (t.v x).toNat = ((if x = VF then c else (s.v x).toNat) + 256 - (if y = VF then c else (s.v y).toNat)) % 256 ∧
      (x ≠ VF → (t.v VF).toNat = c) ∧ OnlyRegs [x, VF] s t) ∧
    (∃ t c, exec (.subnReg x y) s = .next t ∧ c = (if (s.v y).toNat > (s.v x).toNat then 1 else 0) ∧
      (t.v x).toNat = ((if y = VF then c else (s.v y).toNat) + 256 - (if x = VF then c else (s.v x).toNat)) % 256 ∧
      (x ≠ VF → (t.v VF).toNat = c) ∧ OnlyRegs [x, VF] s t)

/-- R158, R160: 8xy6 and 8xyE write the bit shifted out to VF, then shift `V[x]`, which is the new flag if `x` is VF;
`V[y]` is not read. -/
def Obligations.ShiftsSetTheBitShiftedOut : Prop :=
  DecodesAs 0x8006 0xF00F (fun op => .shr (fieldX op) (fieldY op)) ∧
  DecodesAs 0x800E 0xF00F (fun op => .shl (fieldX op) (fieldY op)) ∧
  ∀ (x y : Reg) (s : State),
    (∃ t c, exec (.shr x y) s = .next t ∧ c = (s.v x).toNat % 2 ∧
      (t.v x).toNat = (if x = VF then c else (s.v x).toNat) / 2 ∧
      (x ≠ VF → (t.v VF).toNat = c) ∧ OnlyRegs [x, VF] s t) ∧
    (∃ t c, exec (.shl x y) s = .next t ∧ c = (s.v x).toNat / 128 ∧
      (t.v x).toNat = 2 * (if x = VF then c else (s.v x).toNat) % 256 ∧
      (x ≠ VF → (t.v VF).toNat = c) ∧ OnlyRegs [x, VF] s t)

/-- R163: the results when an 8xy_ instruction names VF, row by row and column by column, from `a = V[x]`, `b = V[y]` and
the old VF `f`. -/
def Obligations.FlagRegisterAsOperand : Prop :=
  let row (mk : Reg → Reg → Instr) (onlyX : Nat → Nat → Nat) (onlyY : Nat → Nat → Nat × Nat) (both : Nat → Nat) : Prop :=
    ∀ (z : Reg) (s : State), z ≠ VF →
      (∃ t, exec (mk VF z) s = .next t ∧ (t.v VF).toNat = onlyX (s.v VF).toNat (s.v z).toNat) ∧
      (∃ t, exec (mk z VF) s = .next t ∧ ((t.v z).toNat, (t.v VF).toNat) = onlyY (s.v z).toNat (s.v VF).toNat) ∧
      (∃ t, exec (mk VF VF) s = .next t ∧ (t.v VF).toNat = both (s.v VF).toNat)
  let gt (p q : Nat) : Nat := if p > q then 1 else 0
  row .ldReg (fun _ b => b) (fun _ f => (f, f)) (fun f => f) ∧
  row .orReg (fun f b => f ||| b) (fun a f => (a ||| f, f)) (fun f => f) ∧
  row .andReg (fun f b => f &&& b) (fun a f => (a &&& f, f)) (fun f => f) ∧
  row .xorReg (fun f b => f ^^^ b) (fun a f => (a ^^^ f, f)) (fun _ => 0) ∧
  row .addReg (fun f b => (f + b) % 256) (fun a f => ((a + f) % 256, gt (a + f) 255)) (fun f => 2 * f % 256) ∧
  row .subReg (fun f b => (gt f b + 256 - b) % 256) (fun a f => ((a + 256 - gt a f) % 256, gt a f)) (fun _ => 0) ∧
  row .shr (fun _ _ => 0) (fun a _ => (a / 2, a % 2)) (fun _ => 0) ∧
  row .subnReg (fun f b => (b + 256 - gt b f) % 256) (fun a f => ((gt f a + 256 - a) % 256, gt f a)) (fun _ => 0) ∧
  row .shl (fun f _ => 2 * (f / 128)) (fun a _ => (2 * a % 256, a / 128)) (fun f => 2 * (f / 128))

/-- R161: Cxkk writes the tick's random byte masked by `kk`. It holds whatever the free value `Config.randByte` is
(log entry 3), and the meaning is the same for any byte put in its place. -/
def Obligations.RandomByteIsMasked : Prop :=
  DecodesAs 0xC000 0xF000 (fun op => .rnd (fieldX op) (fieldKK op)) ∧
  (∀ (x : Reg) (kk : Byte) (s : State), ∃ t, exec (.rnd x kk) s = .next t ∧
    t = rndWith (Config.randByte s.ticks) x kk s) ∧
  ∀ (rand : Byte) (x : Reg) (kk : Byte) (s : State),
    (∀ b, ((rndWith rand x kk s).v x).getLsbD b = (rand.getLsbD b && kk.getLsbD b)) ∧
    OnlyRegs [x] s (rndWith rand x kk s)

/-! ### Index and memory-block family -/

/-- R180, R181, R182: Annn loads `I`, Fx1E adds `V[x]` mod 2^16, Fx29 points at the glyph of the whole byte; only `I`
changes, no flag. -/
def Obligations.IndexLoadsAndAdd : Prop :=
  DecodesAs 0xA000 0xF000 (fun op => .ldI (fieldNNN op)) ∧
  DecodesAs 0xF01E 0xF0FF (fun op => .addI (fieldX op)) ∧
  DecodesAs 0xF029 0xF0FF (fun op => .ldF (fieldX op)) ∧
  (∀ (nnn : Addr12) (s : State), ∃ t, exec (.ldI nnn) s = .next t ∧ t.index.toNat = nnn.toNat ∧ OnlyIndex s t) ∧
  ∀ (x : Reg) (s : State),
    (∃ t, exec (.addI x) s = .next t ∧ t.index.toNat = (s.index.toNat + (s.v x).toNat) % 65536 ∧ OnlyIndex s t) ∧
    (∃ t, exec (.ldF x) s = .next t ∧ t.index.toNat = 0x050 + 5 * (s.v x).toNat ∧ OnlyIndex s t)

/-- R183: Fx33 stores the hundreds, tens and ones of `V[x]` at the three addresses from `I` and changes nothing else;
under `OOB_POLICY = fault` the first address out of range raises the fault. -/
def Obligations.DecimalDigitsAreStored : Prop :=
  DecodesAs 0xF033 0xF0FF (fun op => .ldB (fieldX op)) ∧
  ∀ (x : Reg) (s : State), s.mem.wf s.params.font = true →
    (Accessible s s.index 3 → ∃ t, exec (.ldB x) s = .next t ∧
      (t.byteAt (State.cellOf (offsetAddr s.index 0))).toNat = (s.v x).toNat / 100 ∧
      (t.byteAt (State.cellOf (offsetAddr s.index 1))).toNat = (s.v x).toNat / 10 % 10 ∧
      (t.byteAt (State.cellOf (offsetAddr s.index 2))).toNat = (s.v x).toNat % 10 ∧ OnlyBytes s.index 3 s t) ∧
    ∀ k, FirstOutOfRange s s.index 3 k →
      exec (.ldB x) s = .fault (.raised (.memOutOfRange (offsetAddr s.index k)))

/-- R184: Fx55 stores `V[0]` to `V[x]` at the `x + 1` addresses from `I` and changes nothing else. -/
def Obligations.RegistersAreStored : Prop :=
  DecodesAs 0xF055 0xF0FF (fun op => .stMem (fieldX op)) ∧
  ∀ (x : Reg) (s : State), s.mem.wf s.params.font = true →
    (Accessible s s.index (x.val + 1) → ∃ t, exec (.stMem x) s = .next t ∧
      (∀ k : Reg, k ≤ x → t.byteAt (State.cellOf (offsetAddr s.index k.val)) = s.v k) ∧
      OnlyBytes s.index (x.val + 1) s t) ∧
    ∀ k, FirstOutOfRange s s.index (x.val + 1) k →
      exec (.stMem x) s = .fault (.raised (.memOutOfRange (offsetAddr s.index k)))

/-- R185: Fx65 loads `V[0]` to `V[x]` from the `x + 1` addresses from `I` and changes nothing else. -/
def Obligations.RegistersAreLoaded : Prop :=
  DecodesAs 0xF065 0xF0FF (fun op => .ldMem (fieldX op)) ∧
  ∀ (x : Reg) (s : State),
    (Accessible s s.index (x.val + 1) → ∃ t, exec (.ldMem x) s = .next t ∧
      (∀ k : Reg, k ≤ x → t.v k = s.byteAt (State.cellOf (offsetAddr s.index k.val))) ∧
      (∀ k : Reg, x < k → t.v k = s.v k) ∧ t = { s with regs := t.regs } ∧ SameMemory s t) ∧
    ∀ k, FirstOutOfRange s s.index (x.val + 1) k →
      exec (.ldMem x) s = .fault (.raised (.memOutOfRange (offsetAddr s.index k)))

/-! ### Keypad and timer family -/

/-- R200, R201, R202: Ex9E and ExA1 test the key that the low 4 bits of `V[x]` name; a value above 15 under
`KEY_POLICY = fault` raises the fault. -/
def Obligations.KeySkips : Prop :=
  DecodesAs 0xE00E 0xF00F (fun op => .skp (fieldX op)) ∧
  DecodesAs 0xE001 0xF00F (fun op => .sknp (fieldX op)) ∧
  ∀ (x : Reg) (s : State),
    (¬(s.params.key = .fault ∧ 15 < (s.v x).toNat) → ∀ k : Fin 16, k.val = (s.v x).toNat % 16 →
      (∃ t, exec (.skp x) s = .next t ∧ OnlyPc s t ∧
        t.pc.toNat = if s.key k = true then (s.pc.toNat + 2) % 65536 else s.pc.toNat) ∧
      (∃ t, exec (.sknp x) s = .next t ∧ OnlyPc s t ∧
        t.pc.toNat = if s.key k = true then s.pc.toNat else (s.pc.toNat + 2) % 65536)) ∧
    (s.params.key = .fault → 15 < (s.v x).toNat →
      exec (.skp x) s = .fault (.raised (.keyOutOfRange (s.v x))) ∧
      exec (.sknp x) s = .fault (.raised (.keyOutOfRange (s.v x))))

/-- R204: Fx0A stores the lowest pressed key; with none pressed it moves `PC` back by 2 and changes nothing else. -/
def Obligations.KeyWaitStoresLowestKeyOrRepeats : Prop :=
  DecodesAs 0xF00A 0xF0FF (fun op => .ldVxK (fieldX op)) ∧
  ∀ (x : Reg) (s : State),
    (∀ k : Fin 16, s.key k = true → (∀ j, j < k → s.key j = false) →
      ∃ t, exec (.ldVxK x) s = .next t ∧ (t.v x).toNat = k.val ∧ OnlyRegs [x] s t) ∧
    ((∀ k : Fin 16, s.key k = false) →
      ∃ t, exec (.ldVxK x) s = .next t ∧ t.pc.toNat = (s.pc.toNat + 65534) % 65536 ∧ OnlyPc s t)

/-- R203, R205, R206, with the tick's own timer step after them: Fx07 reads `DT` before the step, a timer that Fx15 or
Fx18 writes ends the tick one lower, as the spec derives from R83. -/
def Obligations.TimerTransfers : Prop :=
  DecodesAs 0xF007 0xF0FF (fun op => .ldVxDT (fieldX op)) ∧
  DecodesAs 0xF015 0xF0FF (fun op => .ldDTVx (fieldX op)) ∧
  DecodesAs 0xF018 0xF0FF (fun op => .ldSTVx (fieldX op)) ∧
  ∀ (x : Reg) (s : State),
    (∃ t, exec (.ldVxDT x) s = .next t ∧ t.v x = s.dt ∧ OnlyRegs [x] s t ∧
      t.endTick.v x = s.dt ∧ t.endTick.dt.toNat = s.dt.toNat - 1) ∧
    (∃ t, exec (.ldDTVx x) s = .next t ∧ t.dt = s.v x ∧ t = { s with dt := t.dt } ∧ SameMemory s t ∧
      t.endTick.dt.toNat = (s.v x).toNat - 1) ∧
    (∃ t, exec (.ldSTVx x) s = .next t ∧ t.st = s.v x ∧ t = { s with st := t.st } ∧ SameMemory s t ∧
      t.endTick.st.toNat = (s.v x).toNat - 1)

/-! ### The tick -/

/-- A step runs the decoded instruction (R73, R82, R89): when the two bytes at `PC` decode to `i`, a step is `exec i` at
the state with the word latched and `PC` advanced, then the timer step; a model fault undoes the tick. The fields
`event` and `ticks` are the model's own (log entries 3 and 4). -/
def Obligations.StepRunsTheDecodedInstruction : Prop :=
  ∀ (s : State) (w : Word) (i : Instr), s.phase.admitsTick = true → Accessible s s.pc 2 →
    w = wordOfBytes (s.byteAt (State.cellOf s.pc)) (s.byteAt (State.cellOf (s.pc + 1))) → decode w = .ok i →
    (∀ t, exec i { s with op := w, pc := s.pc + 2, event := none } = .next t →
      step s = .next { t with
        dt := State.countDown t.dt, st := State.countDown t.st, phase := .run, ticks := t.ticks + 1 }) ∧
    ∀ k, exec i { s with op := w, pc := s.pc + 2, event := none } = .fault (.raised k) →
      step s = .next { s with phase := .faulted k s.pc, event := none }

/-- R84: an unrecognised word changes the latch, `PC` and the timers only, and the tick puts out the event with the word
and the address it was fetched from (R221); the tick itself makes the phase `Run` (R89). That the event stands in the field
`event`, and the count `ticks`, are the model's own (log entries 3 and 4). -/
def Obligations.UnrecognizedWordIsReportedNoOp : Prop :=
  ∀ (s : State) (w : Word), s.phase.admitsTick = true → s.fetch = .ok w → decode w = .error (.unrecognized w) →
    step s = .next { s with
      op := w, pc := s.pc + 2, dt := State.countDown s.dt, st := State.countDown s.st,
      event := some { op := w, p := s.pc }, phase := .run, ticks := s.ticks + 1 }

/-- R53, R74: the fetch is big-endian from `PC` and `PC + 1` mod 2^16; under `OOB_POLICY = fault` a fetch with
`PC ≥ 0x0FFF` raises the fault for the first address out of range. -/
def Obligations.FetchIsBigEndian : Prop :=
  ∀ s : State,
    (¬(s.params.oob = .fault ∧ 0x0FFF ≤ s.pc.toNat) → ∃ w, s.fetch = .ok w ∧
      w.toNat = 256 * (s.byteAt (s.pc.toNat % 4096)).toNat + (s.byteAt ((s.pc.toNat + 1) % 65536 % 4096)).toNat) ∧
    (s.params.oob = .fault → 0x0FFF ≤ s.pc.toNat →
      s.fetch = .error (.memOutOfRange (if 0x1000 ≤ s.pc.toNat then s.pc else s.pc + 1)))

/-- R83, and what the spec derives there from the order of R73: in every completed tick each timer falls by 1 if it was
nonzero; a timer that the tick's instruction wrote falls by 1 from the value written. -/
def Obligations.TimersCountDownEveryTick : Prop :=
  ∀ (s t : State) (w : Word), s.fetch = .ok w → step s = .next t → t.phase = .run →
    ((∀ x, decode w ≠ .ok (.ldDTVx x)) → t.dt.toNat = s.dt.toNat - 1) ∧
    (∀ x, decode w = .ok (.ldDTVx x) → t.dt.toNat = (s.v x).toNat - 1) ∧
    ((∀ x, decode w ≠ .ok (.ldSTVx x)) → t.st.toNat = s.st.toNat - 1) ∧
    (∀ x, decode w = .ok (.ldSTVx x) → t.st.toNat = (s.v x).toNat - 1)

/-- R25: `PC` after a completed tick, for every word. -/
def Obligations.PcAfterEveryTick : Prop :=
  ∀ (s t : State) (w : Word), s.fetch = .ok w → step s = .next t → t.phase = .run → t.pc = pcAfter s w

/-- R223: a tick ends in phase `Faulted` only for a kind, cause and recorded value of the table, under that kind's
`fault` parameter, and then every other component is as before the tick; no tick runs from there; and a tick whose fetch
raises a fault ends so. That such a tick is a next state with no event, and that `step` then stops with `noTick`, are the
model's forms (log entries 4 and 5). -/
def Obligations.FaultingTickIsUndone : Prop :=
  (∀ (s t : State) (k : FaultKind) (p : Word), step s = .next t → t.phase = .faulted k p →
    k.Raisable s ∧ p = s.pc ∧ t = { s with phase := .faulted k s.pc, event := none } ∧
    step t = .fault (.noTick (.faulted k p))) ∧
  ∀ (s : State) (k : FaultKind), s.phase.admitsTick = true → s.fetch = .error k →
    step s = .next { s with phase := .faulted k s.pc, event := none }

/-- R220, R229: under the default policies every instruction completes in every state, and every tick that may run
completes. -/
def Obligations.DefaultPoliciesNeverFault : Prop :=
  ∀ s : State, s.params.oob = .wrap → s.params.stack = .wrap → s.params.key = .lowNibble →
    (∀ i, ∃ t, exec i s = .next t) ∧ (s.phase.admitsTick = true → ∃ t, step s = .next t ∧ t.phase = .run)

/-- R40, R89, R253: a tick runs exactly in phases `Boot`, `Ready` and `Run`, and ends in `Run` or `Faulted`. That the step
stops with the fault `noTick` elsewhere is the model's form of "no tick runs" (log entry 5). -/
def Obligations.TicksRunOnlyInBootReadyRun : Prop :=
  ∀ s : State,
    ((s.phase = .boot ∨ s.phase = .ready ∨ s.phase = .run) ↔ ∃ t, step s = .next t) ∧
    (∀ t, step s = .next t → t.phase = .run ∨ ∃ k, t.phase = .faulted k s.pc) ∧
    ((s.phase = .loadFailed ∨ ∃ k p, s.phase = .faulted k p) → step s = .fault (.noTick s.phase))

/-- R236, R262: with no key pressed, a machine at an Fx0A stays there for any number of ticks: `PC`, the registers and all
else survive, the timers fall by one a tick down to 0. -/
def Obligations.BlockedOnKeyKeepsStateAndTimersRun : Prop :=
  ∀ (n : Nat) (s : State) (w : Word) (x : Reg), s.phase.admitsTick = true → (∀ k, s.key k = false) →
    s.fetch = .ok w → decode w = .ok (.ldVxK x) →
    ∃ t, Sys2Proof.core.run (n + 1) s = .next t ∧ t.dt.toNat = s.dt.toNat - (n + 1) ∧
      t.st.toNat = s.st.toNat - (n + 1) ∧
      t = { s with op := w, dt := t.dt, st := t.st, phase := .run, event := none, ticks := t.ticks }

/-! ### Whole-machine rules -/

/-- Which components which instructions may change (R20, R27, R28, R29, R31, R32, R34, R35, R37, R38, R56): no other
instruction changes them in any state, and no instruction changes the keypad, the latch, the phase or the parameters. `PC`
here is the already-advanced one (R23). That no instruction changes `event` and `ticks` either is about the model's own
fields (log entries 3 and 4). -/
def Obligations.OnlyNamedInstructionsChangeEachComponent : Prop :=
  ∀ (i : Instr) (s t : State), exec i s = .next t →
    (t.stack = s.stack ∨ ∃ nnn, i = .call nnn) ∧
    (t.sp = s.sp ∧ t.depth = s.depth ∨ i = .ret ∨ ∃ nnn, i = .call nnn) ∧
    (t.index = s.index ∨ (∃ nnn, i = .ldI nnn) ∨ ∃ x, i = .addI x ∨ i = .ldF x) ∧
    (t.video = s.video ∨ i = .cls ∨ ∃ x y n, i = .drw x y n) ∧
    (t.mem = s.mem ∨ ∃ x, i = .ldB x ∨ i = .stMem x) ∧
    (t.dt = s.dt ∨ ∃ x, i = .ldDTVx x) ∧
    (t.st = s.st ∨ ∃ x, i = .ldSTVx x) ∧
    (t.v VF = s.v VF ∨ (∃ x y, i = .addReg x y ∨ i = .subReg x y ∨ i = .shr x y ∨ i = .subnReg x y ∨ i = .shl x y) ∨
      (∃ x y n, i = .drw x y n) ∨ (∃ kk, i = .ldImm VF kk ∨ i = .addImm VF kk ∨ i = .rnd VF kk) ∨
      (∃ y, i = .ldReg VF y ∨ i = .orReg VF y ∨ i = .andReg VF y ∨ i = .xorReg VF y) ∨
      i = .ldVxDT VF ∨ i = .ldVxK VF ∨ i = .ldMem VF) ∧
    (∀ j, j ≠ VF → t.v j = s.v j ∨ (∃ kk, i = .ldImm j kk ∨ i = .addImm j kk ∨ i = .rnd j kk) ∨
      (∃ y, i = .ldReg j y ∨ i = .orReg j y ∨ i = .andReg j y ∨ i = .xorReg j y) ∨
      (∃ y, i = .addReg j y ∨ i = .subReg j y ∨ i = .shr j y ∨ i = .subnReg j y ∨ i = .shl j y) ∨
      i = .ldVxDT j ∨ i = .ldVxK j ∨ ∃ x, j ≤ x ∧ i = .ldMem x) ∧
    (t.pc = s.pc ∨ i = .ret ∨ (∃ nnn, i = .jp nnn ∨ i = .call nnn ∨ i = .jpV0 nnn) ∨
      (∃ x kk, i = .seImm x kk ∨ i = .sneImm x kk) ∨ (∃ x y, i = .seReg x y ∨ i = .sneReg x y) ∨
      ∃ x, i = .skp x ∨ i = .sknp x ∨ i = .ldVxK x) ∧
    t.keys = s.keys ∧ t.op = s.op ∧ t.phase = s.phase ∧ t.params = s.params ∧ t.event = s.event ∧ t.ticks = s.ticks

/-- No step changes the keypad (R34) or the model parameters (R10), and the latch holds the word the tick fetched (R33). -/
def Obligations.StepKeepsKeypadAndParameters : Prop :=
  ∀ s t : State, step s = .next t → t.keys = s.keys ∧ t.params = s.params ∧
    (t.phase = .run → s.fetch = .ok t.op)

/-- Every step keeps the invariant (`State.Inv`): memory stays canonical, `DEPTH` stays in 0..16 and in step with `SP`
under `STACK_POLICY = fault`, and a recorded fault is one the parameters allow. -/
def Obligations.StepKeepsTheInvariant : Prop :=
  ∀ s t : State, s.Inv → step s = .next t → t.Inv

/-- The state after reset meets the invariant, for every setting of the model parameters. -/
def Obligations.ResetMeetsTheInvariant : Prop :=
  State.reset.Inv ∧ ∀ params : Params, (State.resetWith params).Inv

/-- Every state the host can bring the machine to, by LoadROM, keypad writes and ticks in any order it may perform them
(R233), meets the invariant, and a machine whose load failed has the memory that reset left it (R253). -/
def Obligations.ReachableStatesMeetTheInvariant : Prop :=
  ∀ (params : Params) (s : State), Reachable params s →
    s.Inv ∧ s.params = params ∧ (s.phase = .loadFailed → SameMemory (State.resetWith params) s)

/-! ### Memory -/

/-- R52, R57: `MemRead` and `MemWrite` reach the byte that the low 12 bits of the address name, or raise the fault; a
write is read back and leaves every other byte and component as it was. The premise and the last clause, the canonical
form, are the model's own (log entry 10). -/
def Obligations.MemoryPrimitives : Prop :=
  ∀ (s : State) (a : Word) (b : Byte), s.mem.wf s.params.font = true →
    (¬(s.params.oob = .fault ∧ 0x1000 ≤ a.toNat) →
      s.memRead a = .ok (s.byteAt (a.toNat % 4096)) ∧
      ∃ t, s.memWrite a b = .ok t ∧ t.byteAt (a.toNat % 4096) = b ∧
        (∀ c, c ≠ a.toNat % 4096 → t.byteAt c = s.byteAt c) ∧ t = { s with mem := t.mem } ∧
        t.mem.wf t.params.font = true) ∧
    (s.params.oob = .fault → 0x1000 ≤ a.toNat →
      s.memRead a = .error (.memOutOfRange a) ∧ s.memWrite a b = .error (.memOutOfRange a))

/-- Equal memories are equal data: two memories in canonical form with the same bytes are the same list (the model's own
form, log entry 10). -/
def Obligations.CanonicalMemoryIsDeterminedByItsBytes : Prop :=
  ∀ (font : Font) (m n : Memory), m.wf font = true → n.wf font = true →
    (∀ a < Config.memSize, m.read font a = n.read font a) → m = n

/-- R65: a word stored at the bytes of the next instruction is what the next fetch reads, with no fence. The store is the
model's own placement `withFetchWord` (log entry 7), and what a number of `nbits` bits stands for, and so what
`decodeTableWord` reads from it, is the model's own too (log entry 14). -/
def Obligations.StoredWordIsFetchedNext : Prop :=
  ∀ (s : State) (nbits w : Nat), s.mem.wf s.params.font = true → Accessible s s.pc 2 →
    ∃ op, (s.withFetchWord nbits w).fetch = .ok op ∧ (w < 65536 → nbits = 16 → op.toNat = w) ∧
      ∀ i, decodeTableWord nbits w = some i ↔ decode op = .ok i

/-! ### Reset, boot and the host's operations -/

/-- R42: every component after reset, for every setting of the model parameters; memory is 0 except `FONT` at
0x050-0x09F. (`event` and `ticks` are the model's own fields and not spoken of.) -/
def Obligations.ResetStateIsAsListed : Prop :=
  ∀ params : Params, let s := State.resetWith params
    (∀ r, s.v r = 0) ∧ s.index = 0x0000 ∧ s.pc = 0x0200 ∧ s.sp = 0 ∧ (∀ j, s.stackAt j = 0x0000) ∧ s.dt = 0 ∧ s.st = 0 ∧
    (∀ k (h : k < 80), s.byteAt (0x050 + k) = params.font[k]) ∧
    (∀ a, a < 0x1000 → ¬(0x050 ≤ a ∧ a ≤ 0x09F) → s.byteAt a = 0) ∧
    (∀ y x, Video.pixel s.video y x = false) ∧ (∀ k, s.key k = false) ∧ s.op = 0x0000 ∧ s.phase = .boot ∧ s.depth = 0 ∧
    s.params = params

/-- R10, R36: `State.reset` has the default policies and all 80 bytes of the default font, glyph by glyph as the table of
R36 lists them. The spec presumes the font bytes (D11, log entry 2). -/
def Obligations.ResetHasTheDefaultParameters : Prop :=
  let glyphs : List (Nat × List Byte) :=
    [(0x050, [0xF0, 0x90, 0x90, 0x90, 0xF0]), (0x055, [0x20, 0x60, 0x20, 0x20, 0x70]),
     (0x05A, [0xF0, 0x10, 0xF0, 0x80, 0xF0]), (0x05F, [0xF0, 0x10, 0xF0, 0x10, 0xF0])] ++
    [(0x064, [0x90, 0x90, 0xF0, 0x10, 0x10]), (0x069, [0xF0, 0x80, 0xF0, 0x10, 0xF0]),
     (0x06E, [0xF0, 0x80, 0xF0, 0x90, 0xF0]), (0x073, [0xF0, 0x10, 0x20, 0x40, 0x40])] ++
    [(0x078, [0xF0, 0x90, 0xF0, 0x90, 0xF0]), (0x07D, [0xF0, 0x90, 0xF0, 0x10, 0xF0]),
     (0x082, [0xF0, 0x90, 0xF0, 0x90, 0x90]), (0x087, [0xE0, 0x90, 0xE0, 0x90, 0xE0])] ++
    [(0x08C, [0xF0, 0x80, 0x80, 0x80, 0xF0]), (0x091, [0xE0, 0x90, 0x90, 0x90, 0xE0]),
     (0x096, [0xF0, 0x80, 0xF0, 0x80, 0xF0]), (0x09B, [0xF0, 0x80, 0xF0, 0x80, 0x80])]
  State.reset.params.oob = .wrap ∧ State.reset.params.stack = .wrap ∧ State.reset.params.key = .lowNibble ∧
  ∀ g ∈ glyphs, (List.range 5).map (fun k => State.reset.byteAt (g.1 + k)) = g.2

/-- R252, R253, R255: LoadROM in `Boot` stores the bytes from 0x200 and changes nothing else but the phase; too long or
unreadable, it leaves all but the phase as it was; outside `Boot` the host has no such move, which the model says by a
refusal of its own (log entry 7). -/
def Obligations.LoadRomStoresBytesOrFails : Prop :=
  ∀ (readable : Bool) (b : List Byte) (s : State), s.mem.wf s.params.font = true →
    (s.phase = .boot → readable = true → b.length ≤ 3584 →
      ∃ t, loadRom readable b s = .next (.success, t) ∧ t.phase = .ready ∧
        (∀ i (h : i < b.length), t.byteAt (0x200 + i) = b[i]) ∧
        (∀ a, ¬(0x200 ≤ a ∧ a < 0x200 + b.length) → t.byteAt a = s.byteAt a) ∧
        t = { s with mem := t.mem, phase := .ready } ∧ t.mem.wf t.params.font = true) ∧
    (s.phase = .boot → (readable = false ∨ 3584 < b.length) →
      loadRom readable b s = .next (.romLoadError, { s with phase := .loadFailed })) ∧
    (s.phase ≠ .boot → loadRom readable b s = .refused .loadRomOutsideBoot)

/-- R254: a tick from `Boot` behaves as after loading an empty ROM. -/
def Obligations.BootTickIsAsAfterEmptyRom : Prop :=
  ∀ s : State, s.phase = .boot → ∃ t, loadRom true [] s = .next (.success, t) ∧ step t = step s

/-- R34, R35, R233: the host's video read is the 2048 cells row-major, and its keypad write sets the 16 key levels and
changes nothing else. -/
def Obligations.HostReadsVideoRowMajorAndWritesKeys : Prop :=
  ∀ (s : State) (keys : Keypad),
    (readVideo s).length = 2048 ∧
    (∀ (y : Fin 32) (x : Fin 64), (readVideo s)[y.val * 64 + x.val]? = some (Video.pixel s.video y x)) ∧
    (∀ k : Fin 16, (writeKeypad keys s).key k = keys[k.val]) ∧
    writeKeypad keys s = { s with keys := (writeKeypad keys s).keys }

/-- R10, D20: `TICK_RATE` is read by no rule: under another rate every move of the host, a tick or another, answers the
same, and the rate stays as it was. That it is a parameter without a default is said in log entry 13. -/
def Obligations.NoRuleReadsTheTickRate : Prop :=
  ∀ (m : HostMove) (s : State) (rate : Option Nat),
    hostMove m (s.setTickRate rate) = Answer.setTickRate rate (hostMove m s)
end

