-- ==== Sys2Proof/Laws/Decode.lean ====
section
/-! SUPPORT. The fields of a word: of the words the encoder makes, and of the words that an encoding's mask selects. -/

namespace Sys2Proof

/-! ### Fields as numbers -/

theorem family_toNat (op : Word) : (family op).toNat = op.toNat / 4096 := by
  have := op.isLt
  simp only [family, BitVec.extractLsb'_toNat, Nat.shiftRight_eq_div_pow]
  omega

theorem lowNibble_toNat (op : Word) : (lowNibble op).toNat = op.toNat % 16 := by
  simp only [lowNibble, BitVec.extractLsb'_toNat, Nat.shiftRight_eq_div_pow]
  omega

theorem fieldX_val (op : Word) : (fieldX op).val = op.toNat / 256 % 16 := by
  simp only [fieldX, BitVec.extractLsb'_toNat, Nat.shiftRight_eq_div_pow]

theorem fieldY_val (op : Word) : (fieldY op).val = op.toNat / 16 % 16 := by
  simp only [fieldY, BitVec.extractLsb'_toNat, Nat.shiftRight_eq_div_pow]

theorem fieldN_eq (op : Word) : fieldN op = op.toNat % 16 := by
  simp only [fieldN, BitVec.extractLsb'_toNat, Nat.shiftRight_eq_div_pow]
  omega

theorem fieldKK_toNat (op : Word) : (fieldKK op).toNat = op.toNat % 256 := by
  simp only [fieldKK, BitVec.extractLsb'_toNat, Nat.shiftRight_eq_div_pow]
  omega

theorem fieldNNN_toNat (op : Word) : (fieldNNN op).toNat = op.toNat % 4096 := by
  simp only [fieldNNN, BitVec.extractLsb'_toNat, Nat.shiftRight_eq_div_pow]
  omega

/-! ### The words of the formats as numbers (R71) -/

theorem toNat_append_add {m n : Nat} (a : BitVec m) (b : BitVec n) : (a ++ b).toNat = a.toNat * 2 ^ n + b.toNat := by
  rw [BitVec.toNat_append, ← Nat.shiftLeft_add_eq_or_of_lt b.isLt, Nat.shiftLeft_eq]

theorem formatNNN_toNat (fam : BitVec 4) (nnn : Addr12) :
    (formatNNN fam nnn).toNat = fam.toNat * 4096 + nnn.toNat := toNat_append_add fam nnn

theorem formatXKK_toNat (fam : BitVec 4) (x : Reg) (kk : Byte) :
    (formatXKK fam x kk).toNat = fam.toNat * 4096 + x.val * 256 + kk.toNat := by
  have h := toNat_append_add (fam ++ BitVec.ofNat 4 x.val) kk
  rw [toNat_append_add fam] at h
  have := x.isLt
  simp only [BitVec.toNat_ofNat] at h
  rw [formatXKK]
  exact h.trans (by omega)

theorem formatXYN_toNat (fam : BitVec 4) (x y : Reg) (n : BitVec 4) :
    (formatXYN fam x y n).toNat = fam.toNat * 4096 + x.val * 256 + y.val * 16 + n.toNat := by
  have h := toNat_append_add (fam ++ BitVec.ofNat 4 x.val ++ BitVec.ofNat 4 y.val) n
  rw [toNat_append_add (fam ++ BitVec.ofNat 4 x.val), toNat_append_add fam] at h
  have := x.isLt
  have := y.isLt
  simp only [BitVec.toNat_ofNat] at h
  rw [formatXYN]
  exact h.trans (by omega)

/-! ### The fields of the words of the formats (R71, R72) -/

section
variable (fam : BitVec 4) (x y : Reg) (n : BitVec 4) (kk : Byte) (nnn : Addr12)

@[simp] theorem family_formatNNN : family (formatNNN fam nnn) = fam := by
  apply BitVec.eq_of_toNat_eq
  rw [family_toNat, formatNNN_toNat]
  omega

@[simp] theorem fieldNNN_formatNNN : fieldNNN (formatNNN fam nnn) = nnn := by
  apply BitVec.eq_of_toNat_eq
  rw [fieldNNN_toNat, formatNNN_toNat]
  omega

@[simp] theorem family_formatXKK : family (formatXKK fam x kk) = fam := by
  apply BitVec.eq_of_toNat_eq
  rw [family_toNat, formatXKK_toNat]
  omega

@[simp] theorem fieldX_formatXKK : fieldX (formatXKK fam x kk) = x := by
  apply Fin.ext
  rw [fieldX_val, formatXKK_toNat]
  omega

@[simp] theorem fieldKK_formatXKK : fieldKK (formatXKK fam x kk) = kk := by
  apply BitVec.eq_of_toNat_eq
  rw [fieldKK_toNat, formatXKK_toNat]
  omega

@[simp] theorem lowNibble_formatXKK : lowNibble (formatXKK fam x kk) = kk.extractLsb' 0 4 := by
  apply BitVec.eq_of_toNat_eq
  rw [lowNibble_toNat, formatXKK_toNat]
  simp only [BitVec.extractLsb'_toNat, Nat.shiftRight_eq_div_pow]
  omega

@[simp] theorem family_formatXYN : family (formatXYN fam x y n) = fam := by
  apply BitVec.eq_of_toNat_eq
  rw [family_toNat, formatXYN_toNat]
  omega

@[simp] theorem fieldX_formatXYN : fieldX (formatXYN fam x y n) = x := by
  apply Fin.ext
  rw [fieldX_val, formatXYN_toNat]
  omega

@[simp] theorem fieldY_formatXYN : fieldY (formatXYN fam x y n) = y := by
  apply Fin.ext
  rw [fieldY_val, formatXYN_toNat]
  omega

@[simp] theorem fieldN_formatXYN : fieldN (formatXYN fam x y n) = n.toNat := by
  rw [fieldN_eq, formatXYN_toNat]
  omega

@[simp] theorem lowNibble_formatXYN : lowNibble (formatXYN fam x y n) = n := by
  apply BitVec.eq_of_toNat_eq
  rw [lowNibble_toNat, formatXYN_toNat]
  omega

end

/-- The two bytes of a word, put together in memory order, are the word (R53). -/
theorem wordOfBytes_highByte_lowByte (w : Word) : wordOfBytes (highByte w) (lowByte w) = w := by
  apply BitVec.eq_of_toNat_eq
  have h := toNat_append_add (highByte w) (lowByte w)
  have hw := w.isLt
  simp only [highByte, lowByte, BitVec.extractLsb'_toNat, Nat.shiftRight_eq_div_pow] at h
  exact h.trans (by omega)

/-! ### The words an encoding's mask selects -/

theorem family_of_masked {op mask m : Word} (h : op &&& mask = m) (hm : family mask = 0xF) : family op = family m := by
  rw [← h]
  simp only [family] at hm ⊢
  rw [BitVec.extractLsb'_and, hm]
  exact (BitVec.and_allOnes (x := op.extractLsb' 12 4)).symm

theorem lowNibble_of_masked {op mask m : Word} (h : op &&& mask = m) (hm : lowNibble mask = 0xF) :
    lowNibble op = lowNibble m := by
  rw [← h]
  simp only [lowNibble] at hm ⊢
  rw [BitVec.extractLsb'_and, hm]
  exact (BitVec.and_allOnes (x := op.extractLsb' 0 4)).symm

theorem fieldKK_of_masked {op mask m : Word} (h : op &&& mask = m) (hm : fieldKK mask = 0xFF) :
    fieldKK op = fieldKK m := by
  rw [← h]
  simp only [fieldKK] at hm ⊢
  rw [BitVec.extractLsb'_and, hm]
  exact (BitVec.and_allOnes (x := op.extractLsb' 0 8)).symm

end Sys2Proof
end

