-- ==== Sys2Proof/Laws/Memory.lean ====
section
/-! SUPPORT. The laws of memory: a read after a write, and the canonical form. -/

namespace Sys2Proof.Machine.Memory

variable {font : Font}

theorem wfFrom_cons {lo a : Nat} {v : Byte} {m : Memory} :
    wfFrom font lo ((a, v) :: m) = true ↔
      lo ≤ a ∧ a < Config.memSize ∧ v ≠ resetByte font a ∧ wfFrom font (a + 1) m = true := by
  simp [wfFrom, and_assoc]

theorem wfFrom_mono {lo lo' : Nat} {m : Memory} (h : lo' ≤ lo) (hm : wfFrom font lo m = true) :
    wfFrom font lo' m = true := by
  cases m with
  | nil => rfl
  | cons c m =>
    rw [wfFrom_cons] at hm ⊢
    exact ⟨h.trans hm.1, hm.2⟩

/-- An address below all listed ones reads as at reset. -/
theorem read_below {m : Memory} : ∀ {lo a : Nat}, wfFrom font lo m = true → a < lo →
    read font m a = resetByte font a := by
  induction m with
  | nil => intro _ _ _ _; rfl
  | cons c m ih =>
    intro lo a hm ha
    obtain ⟨b, w⟩ := c
    rw [wfFrom_cons] at hm
    have : a ≠ b := by omega
    rw [read, if_neg this]
    exact ih hm.2.2.2 (by omega)

/-- Memory lists addresses of the 4096-byte space only. -/
theorem read_above {m : Memory} : ∀ {lo a : Nat}, wfFrom font lo m = true → Config.memSize ≤ a →
    read font m a = resetByte font a := by
  induction m with
  | nil => intro _ _ _ _; rfl
  | cons c m ih =>
    intro lo a hm ha
    obtain ⟨b, w⟩ := c
    rw [wfFrom_cons] at hm
    have : a ≠ b := by omega
    rw [read, if_neg this]
    exact ih hm.2.2.2 ha

theorem wfFrom_write {m : Memory} {a : Nat} (v : Byte) (ha : a < Config.memSize) :
    ∀ {lo : Nat}, wfFrom font lo m = true → lo ≤ a → wfFrom font lo (write font m a v) = true := by
  induction m with
  | nil =>
    intro lo _ hlo
    simp only [write]
    split
    · rfl
    · exact wfFrom_cons.2 ⟨hlo, ha, ‹_›, rfl⟩
  | cons c m ih =>
    intro lo hm hlo
    obtain ⟨b, w⟩ := c
    have hm' := wfFrom_cons.1 hm
    simp only [write]
    split
    · split
      · exact hm
      · exact wfFrom_cons.2 ⟨hlo, ha, ‹_›, wfFrom_cons.2 ⟨‹a < b›, hm'.2⟩⟩
    · split
      · subst ‹a = b›
        split
        · exact wfFrom_mono (by omega) hm'.2.2.2
        · exact wfFrom_cons.2 ⟨hlo, ha, ‹_›, hm'.2.2.2⟩
      · exact wfFrom_cons.2 ⟨hm'.1, hm'.2.1, hm'.2.2.1, ih hm'.2.2.2 (by omega)⟩

theorem read_write_from {m : Memory} {a : Nat} (v : Byte) (b : Nat) : ∀ {lo : Nat}, wfFrom font lo m = true →
    read font (write font m a v) b = if b = a then v else read font m b := by
  induction m with
  | nil =>
    intro lo _
    by_cases hv : v = resetByte font a <;> by_cases hb : b = a <;> simp [write, read, hv, hb]
  | cons c m ih =>
    intro lo hm
    obtain ⟨e, w⟩ := c
    have hm' := wfFrom_cons.1 hm
    simp only [write]
    split
    · split
      · split
        · subst_vars
          rw [read, if_neg (by omega), read_below hm'.2.2.2 (by omega)]
        · rfl
      · rw [read]
    · split
      · subst ‹a = e›
        split
        · by_cases hb : b = a
          · subst hb
            rw [if_pos rfl, read_below hm'.2.2.2 (by omega)]
            exact Eq.symm ‹_›
          · rw [if_neg hb, read, if_neg hb]
        · by_cases hb : b = a <;> simp [read, hb]
      · rw [read, ih hm'.2.2.2, read]
        by_cases hb : b = e
        · have : b ≠ a := by omega
          simp [hb]
          omega
        · simp [hb]

/-- A write keeps the canonical form. -/
theorem wf_write {m : Memory} (h : wf font m = true) {a : Nat} (ha : a < Config.memSize) (v : Byte) :
    wf font (write font m a v) = true := wfFrom_write v ha h (Nat.zero_le a)

/-- A read after a write gives the value written, and every other byte is as before (R57). -/
theorem read_write {m : Memory} (h : wf font m = true) (a b : Nat) (v : Byte) :
    read font (write font m a v) b = if b = a then v else read font m b := read_write_from v b h

/-- Writes at ascending addresses keep the canonical form. -/
theorem wf_writeList (vs : List Byte) : ∀ {m : Memory} {a : Nat}, wf font m = true →
    a + vs.length ≤ Config.memSize → wf font (writeList font m a vs) = true := by
  induction vs with
  | nil => intro _ _ h _; exact h
  | cons v vs ih =>
    intro m a h ha
    simp only [List.length_cons] at ha
    exact ih (wf_write h (by omega) v) (by omega)

/-- What is read after writes at ascending addresses. -/
theorem read_writeList (vs : List Byte) : ∀ {m : Memory} {a : Nat}, wf font m = true →
    a + vs.length ≤ Config.memSize → ∀ b,
      read font (writeList font m a vs) b =
        if h : a ≤ b ∧ b < a + vs.length then vs[b - a]'(by omega) else read font m b := by
  induction vs with
  | nil => intro m a _ _ b; simp [writeList]
  | cons v vs ih =>
    intro m a h ha b
    simp only [List.length_cons] at ha
    rw [writeList, ih (wf_write h (by omega) v) (by omega), read_write h]
    by_cases hb : b = a
    · subst hb; simp
    · by_cases hr : a + 1 ≤ b ∧ b < a + 1 + vs.length
      · have e : b - a = (b - (a + 1)) + 1 := by omega
        rw [dif_pos hr, dif_pos (by simp only [List.length_cons]; omega)]
        simp only [e, List.getElem_cons_succ]
      · rw [dif_neg hr, dif_neg (by simp only [List.length_cons]; omega), if_neg hb]

end Sys2Proof.Machine.Memory
end

