-- ==== Sys2Proof/Laws/State.lean ====
section
/-! SUPPORT. What each update of the state does to each component, so that no proof unfolds a record update. -/

namespace Sys2Proof.Machine.State

variable (s : State)

/-! ### `setV` -/

@[simp] theorem setV_index (x : Reg) (b : Byte) : (s.setV x b).index = s.index := rfl
@[simp] theorem setV_pc (x : Reg) (b : Byte) : (s.setV x b).pc = s.pc := rfl
@[simp] theorem setV_sp (x : Reg) (b : Byte) : (s.setV x b).sp = s.sp := rfl
@[simp] theorem setV_stack (x : Reg) (b : Byte) : (s.setV x b).stack = s.stack := rfl
@[simp] theorem setV_dt (x : Reg) (b : Byte) : (s.setV x b).dt = s.dt := rfl
@[simp] theorem setV_st (x : Reg) (b : Byte) : (s.setV x b).st = s.st := rfl
@[simp] theorem setV_mem (x : Reg) (b : Byte) : (s.setV x b).mem = s.mem := rfl
@[simp] theorem setV_video (x : Reg) (b : Byte) : (s.setV x b).video = s.video := rfl
@[simp] theorem setV_keys (x : Reg) (b : Byte) : (s.setV x b).keys = s.keys := rfl
@[simp] theorem setV_op (x : Reg) (b : Byte) : (s.setV x b).op = s.op := rfl
@[simp] theorem setV_phase (x : Reg) (b : Byte) : (s.setV x b).phase = s.phase := rfl
@[simp] theorem setV_depth (x : Reg) (b : Byte) : (s.setV x b).depth = s.depth := rfl
@[simp] theorem setV_params (x : Reg) (b : Byte) : (s.setV x b).params = s.params := rfl
@[simp] theorem setV_event (x : Reg) (b : Byte) : (s.setV x b).event = s.event := rfl
@[simp] theorem setV_ticks (x : Reg) (b : Byte) : (s.setV x b).ticks = s.ticks := rfl
@[simp] theorem setV_stackAt (x : Reg) (b : Byte) (l : BitVec 4) : (s.setV x b).stackAt l = s.stackAt l := rfl
@[simp] theorem setV_key (x : Reg) (b : Byte) (l : Fin 16) : (s.setV x b).key l = s.key l := rfl
@[simp] theorem setV_byteAt (x : Reg) (b : Byte) (l : Nat) : (s.setV x b).byteAt l = s.byteAt l := rfl

/-! ### `setIndex` -/

@[simp] theorem setIndex_regs (a : Word) : (s.setIndex a).regs = s.regs := rfl
@[simp] theorem setIndex_index (a : Word) : (s.setIndex a).index = a := rfl
@[simp] theorem setIndex_pc (a : Word) : (s.setIndex a).pc = s.pc := rfl
@[simp] theorem setIndex_sp (a : Word) : (s.setIndex a).sp = s.sp := rfl
@[simp] theorem setIndex_stack (a : Word) : (s.setIndex a).stack = s.stack := rfl
@[simp] theorem setIndex_dt (a : Word) : (s.setIndex a).dt = s.dt := rfl
@[simp] theorem setIndex_st (a : Word) : (s.setIndex a).st = s.st := rfl
@[simp] theorem setIndex_mem (a : Word) : (s.setIndex a).mem = s.mem := rfl
@[simp] theorem setIndex_video (a : Word) : (s.setIndex a).video = s.video := rfl
@[simp] theorem setIndex_keys (a : Word) : (s.setIndex a).keys = s.keys := rfl
@[simp] theorem setIndex_op (a : Word) : (s.setIndex a).op = s.op := rfl
@[simp] theorem setIndex_phase (a : Word) : (s.setIndex a).phase = s.phase := rfl
@[simp] theorem setIndex_depth (a : Word) : (s.setIndex a).depth = s.depth := rfl
@[simp] theorem setIndex_params (a : Word) : (s.setIndex a).params = s.params := rfl
@[simp] theorem setIndex_event (a : Word) : (s.setIndex a).event = s.event := rfl
@[simp] theorem setIndex_ticks (a : Word) : (s.setIndex a).ticks = s.ticks := rfl
@[simp] theorem setIndex_v (a : Word) (r : Reg) : (s.setIndex a).v r = s.v r := rfl
@[simp] theorem setIndex_stackAt (a : Word) (l : BitVec 4) : (s.setIndex a).stackAt l = s.stackAt l := rfl
@[simp] theorem setIndex_key (a : Word) (l : Fin 16) : (s.setIndex a).key l = s.key l := rfl
@[simp] theorem setIndex_byteAt (a : Word) (l : Nat) : (s.setIndex a).byteAt l = s.byteAt l := rfl

/-! ### `setPc` -/

@[simp] theorem setPc_regs (a : Word) : (s.setPc a).regs = s.regs := rfl
@[simp] theorem setPc_index (a : Word) : (s.setPc a).index = s.index := rfl
@[simp] theorem setPc_pc (a : Word) : (s.setPc a).pc = a := rfl
@[simp] theorem setPc_sp (a : Word) : (s.setPc a).sp = s.sp := rfl
@[simp] theorem setPc_stack (a : Word) : (s.setPc a).stack = s.stack := rfl
@[simp] theorem setPc_dt (a : Word) : (s.setPc a).dt = s.dt := rfl
@[simp] theorem setPc_st (a : Word) : (s.setPc a).st = s.st := rfl
@[simp] theorem setPc_mem (a : Word) : (s.setPc a).mem = s.mem := rfl
@[simp] theorem setPc_video (a : Word) : (s.setPc a).video = s.video := rfl
@[simp] theorem setPc_keys (a : Word) : (s.setPc a).keys = s.keys := rfl
@[simp] theorem setPc_op (a : Word) : (s.setPc a).op = s.op := rfl
@[simp] theorem setPc_phase (a : Word) : (s.setPc a).phase = s.phase := rfl
@[simp] theorem setPc_depth (a : Word) : (s.setPc a).depth = s.depth := rfl
@[simp] theorem setPc_params (a : Word) : (s.setPc a).params = s.params := rfl
@[simp] theorem setPc_event (a : Word) : (s.setPc a).event = s.event := rfl
@[simp] theorem setPc_ticks (a : Word) : (s.setPc a).ticks = s.ticks := rfl
@[simp] theorem setPc_v (a : Word) (r : Reg) : (s.setPc a).v r = s.v r := rfl
@[simp] theorem setPc_stackAt (a : Word) (l : BitVec 4) : (s.setPc a).stackAt l = s.stackAt l := rfl
@[simp] theorem setPc_key (a : Word) (l : Fin 16) : (s.setPc a).key l = s.key l := rfl
@[simp] theorem setPc_byteAt (a : Word) (l : Nat) : (s.setPc a).byteAt l = s.byteAt l := rfl

/-! ### `setSp` -/

@[simp] theorem setSp_regs (j : BitVec 4) : (s.setSp j).regs = s.regs := rfl
@[simp] theorem setSp_index (j : BitVec 4) : (s.setSp j).index = s.index := rfl
@[simp] theorem setSp_pc (j : BitVec 4) : (s.setSp j).pc = s.pc := rfl
@[simp] theorem setSp_sp (j : BitVec 4) : (s.setSp j).sp = j := rfl
@[simp] theorem setSp_stack (j : BitVec 4) : (s.setSp j).stack = s.stack := rfl
@[simp] theorem setSp_dt (j : BitVec 4) : (s.setSp j).dt = s.dt := rfl
@[simp] theorem setSp_st (j : BitVec 4) : (s.setSp j).st = s.st := rfl
@[simp] theorem setSp_mem (j : BitVec 4) : (s.setSp j).mem = s.mem := rfl
@[simp] theorem setSp_video (j : BitVec 4) : (s.setSp j).video = s.video := rfl
@[simp] theorem setSp_keys (j : BitVec 4) : (s.setSp j).keys = s.keys := rfl
@[simp] theorem setSp_op (j : BitVec 4) : (s.setSp j).op = s.op := rfl
@[simp] theorem setSp_phase (j : BitVec 4) : (s.setSp j).phase = s.phase := rfl
@[simp] theorem setSp_depth (j : BitVec 4) : (s.setSp j).depth = s.depth := rfl
@[simp] theorem setSp_params (j : BitVec 4) : (s.setSp j).params = s.params := rfl
@[simp] theorem setSp_event (j : BitVec 4) : (s.setSp j).event = s.event := rfl
@[simp] theorem setSp_ticks (j : BitVec 4) : (s.setSp j).ticks = s.ticks := rfl
@[simp] theorem setSp_v (j : BitVec 4) (r : Reg) : (s.setSp j).v r = s.v r := rfl
@[simp] theorem setSp_stackAt (j : BitVec 4) (l : BitVec 4) : (s.setSp j).stackAt l = s.stackAt l := rfl
@[simp] theorem setSp_key (j : BitVec 4) (l : Fin 16) : (s.setSp j).key l = s.key l := rfl
@[simp] theorem setSp_byteAt (j : BitVec 4) (l : Nat) : (s.setSp j).byteAt l = s.byteAt l := rfl

/-! ### `setStackAt` -/

@[simp] theorem setStackAt_regs (j : BitVec 4) (a : Word) : (s.setStackAt j a).regs = s.regs := rfl
@[simp] theorem setStackAt_index (j : BitVec 4) (a : Word) : (s.setStackAt j a).index = s.index := rfl
@[simp] theorem setStackAt_pc (j : BitVec 4) (a : Word) : (s.setStackAt j a).pc = s.pc := rfl
@[simp] theorem setStackAt_sp (j : BitVec 4) (a : Word) : (s.setStackAt j a).sp = s.sp := rfl
@[simp] theorem setStackAt_dt (j : BitVec 4) (a : Word) : (s.setStackAt j a).dt = s.dt := rfl
@[simp] theorem setStackAt_st (j : BitVec 4) (a : Word) : (s.setStackAt j a).st = s.st := rfl
@[simp] theorem setStackAt_mem (j : BitVec 4) (a : Word) : (s.setStackAt j a).mem = s.mem := rfl
@[simp] theorem setStackAt_video (j : BitVec 4) (a : Word) : (s.setStackAt j a).video = s.video := rfl
@[simp] theorem setStackAt_keys (j : BitVec 4) (a : Word) : (s.setStackAt j a).keys = s.keys := rfl
@[simp] theorem setStackAt_op (j : BitVec 4) (a : Word) : (s.setStackAt j a).op = s.op := rfl
@[simp] theorem setStackAt_phase (j : BitVec 4) (a : Word) : (s.setStackAt j a).phase = s.phase := rfl
@[simp] theorem setStackAt_depth (j : BitVec 4) (a : Word) : (s.setStackAt j a).depth = s.depth := rfl
@[simp] theorem setStackAt_params (j : BitVec 4) (a : Word) : (s.setStackAt j a).params = s.params := rfl
@[simp] theorem setStackAt_event (j : BitVec 4) (a : Word) : (s.setStackAt j a).event = s.event := rfl
@[simp] theorem setStackAt_ticks (j : BitVec 4) (a : Word) : (s.setStackAt j a).ticks = s.ticks := rfl
@[simp] theorem setStackAt_v (j : BitVec 4) (a : Word) (r : Reg) : (s.setStackAt j a).v r = s.v r := rfl
@[simp] theorem setStackAt_key (j : BitVec 4) (a : Word) (l : Fin 16) : (s.setStackAt j a).key l = s.key l := rfl
@[simp] theorem setStackAt_byteAt (j : BitVec 4) (a : Word) (l : Nat) : (s.setStackAt j a).byteAt l = s.byteAt l := rfl

/-! ### `setDt` -/

@[simp] theorem setDt_regs (b : Byte) : (s.setDt b).regs = s.regs := rfl
@[simp] theorem setDt_index (b : Byte) : (s.setDt b).index = s.index := rfl
@[simp] theorem setDt_pc (b : Byte) : (s.setDt b).pc = s.pc := rfl
@[simp] theorem setDt_sp (b : Byte) : (s.setDt b).sp = s.sp := rfl
@[simp] theorem setDt_stack (b : Byte) : (s.setDt b).stack = s.stack := rfl
@[simp] theorem setDt_dt (b : Byte) : (s.setDt b).dt = b := rfl
@[simp] theorem setDt_st (b : Byte) : (s.setDt b).st = s.st := rfl
@[simp] theorem setDt_mem (b : Byte) : (s.setDt b).mem = s.mem := rfl
@[simp] theorem setDt_video (b : Byte) : (s.setDt b).video = s.video := rfl
@[simp] theorem setDt_keys (b : Byte) : (s.setDt b).keys = s.keys := rfl
@[simp] theorem setDt_op (b : Byte) : (s.setDt b).op = s.op := rfl
@[simp] theorem setDt_phase (b : Byte) : (s.setDt b).phase = s.phase := rfl
@[simp] theorem setDt_depth (b : Byte) : (s.setDt b).depth = s.depth := rfl
@[simp] theorem setDt_params (b : Byte) : (s.setDt b).params = s.params := rfl
@[simp] theorem setDt_event (b : Byte) : (s.setDt b).event = s.event := rfl
@[simp] theorem setDt_ticks (b : Byte) : (s.setDt b).ticks = s.ticks := rfl
@[simp] theorem setDt_v (b : Byte) (r : Reg) : (s.setDt b).v r = s.v r := rfl
@[simp] theorem setDt_stackAt (b : Byte) (l : BitVec 4) : (s.setDt b).stackAt l = s.stackAt l := rfl
@[simp] theorem setDt_key (b : Byte) (l : Fin 16) : (s.setDt b).key l = s.key l := rfl
@[simp] theorem setDt_byteAt (b : Byte) (l : Nat) : (s.setDt b).byteAt l = s.byteAt l := rfl

/-! ### `setSt` -/

@[simp] theorem setSt_regs (b : Byte) : (s.setSt b).regs = s.regs := rfl
@[simp] theorem setSt_index (b : Byte) : (s.setSt b).index = s.index := rfl
@[simp] theorem setSt_pc (b : Byte) : (s.setSt b).pc = s.pc := rfl
@[simp] theorem setSt_sp (b : Byte) : (s.setSt b).sp = s.sp := rfl
@[simp] theorem setSt_stack (b : Byte) : (s.setSt b).stack = s.stack := rfl
@[simp] theorem setSt_dt (b : Byte) : (s.setSt b).dt = s.dt := rfl
@[simp] theorem setSt_st (b : Byte) : (s.setSt b).st = b := rfl
@[simp] theorem setSt_mem (b : Byte) : (s.setSt b).mem = s.mem := rfl
@[simp] theorem setSt_video (b : Byte) : (s.setSt b).video = s.video := rfl
@[simp] theorem setSt_keys (b : Byte) : (s.setSt b).keys = s.keys := rfl
@[simp] theorem setSt_op (b : Byte) : (s.setSt b).op = s.op := rfl
@[simp] theorem setSt_phase (b : Byte) : (s.setSt b).phase = s.phase := rfl
@[simp] theorem setSt_depth (b : Byte) : (s.setSt b).depth = s.depth := rfl
@[simp] theorem setSt_params (b : Byte) : (s.setSt b).params = s.params := rfl
@[simp] theorem setSt_event (b : Byte) : (s.setSt b).event = s.event := rfl
@[simp] theorem setSt_ticks (b : Byte) : (s.setSt b).ticks = s.ticks := rfl
@[simp] theorem setSt_v (b : Byte) (r : Reg) : (s.setSt b).v r = s.v r := rfl
@[simp] theorem setSt_stackAt (b : Byte) (l : BitVec 4) : (s.setSt b).stackAt l = s.stackAt l := rfl
@[simp] theorem setSt_key (b : Byte) (l : Fin 16) : (s.setSt b).key l = s.key l := rfl
@[simp] theorem setSt_byteAt (b : Byte) (l : Nat) : (s.setSt b).byteAt l = s.byteAt l := rfl

/-! ### `setMem` -/

@[simp] theorem setMem_regs (m : Memory) : (s.setMem m).regs = s.regs := rfl
@[simp] theorem setMem_index (m : Memory) : (s.setMem m).index = s.index := rfl
@[simp] theorem setMem_pc (m : Memory) : (s.setMem m).pc = s.pc := rfl
@[simp] theorem setMem_sp (m : Memory) : (s.setMem m).sp = s.sp := rfl
@[simp] theorem setMem_stack (m : Memory) : (s.setMem m).stack = s.stack := rfl
@[simp] theorem setMem_dt (m : Memory) : (s.setMem m).dt = s.dt := rfl
@[simp] theorem setMem_st (m : Memory) : (s.setMem m).st = s.st := rfl
@[simp] theorem setMem_mem (m : Memory) : (s.setMem m).mem = m := rfl
@[simp] theorem setMem_video (m : Memory) : (s.setMem m).video = s.video := rfl
@[simp] theorem setMem_keys (m : Memory) : (s.setMem m).keys = s.keys := rfl
@[simp] theorem setMem_op (m : Memory) : (s.setMem m).op = s.op := rfl
@[simp] theorem setMem_phase (m : Memory) : (s.setMem m).phase = s.phase := rfl
@[simp] theorem setMem_depth (m : Memory) : (s.setMem m).depth = s.depth := rfl
@[simp] theorem setMem_params (m : Memory) : (s.setMem m).params = s.params := rfl
@[simp] theorem setMem_event (m : Memory) : (s.setMem m).event = s.event := rfl
@[simp] theorem setMem_ticks (m : Memory) : (s.setMem m).ticks = s.ticks := rfl
@[simp] theorem setMem_v (m : Memory) (r : Reg) : (s.setMem m).v r = s.v r := rfl
@[simp] theorem setMem_stackAt (m : Memory) (l : BitVec 4) : (s.setMem m).stackAt l = s.stackAt l := rfl
@[simp] theorem setMem_key (m : Memory) (l : Fin 16) : (s.setMem m).key l = s.key l := rfl

/-! ### `setVideo` -/

@[simp] theorem setVideo_regs (vid : Video) : (s.setVideo vid).regs = s.regs := rfl
@[simp] theorem setVideo_index (vid : Video) : (s.setVideo vid).index = s.index := rfl
@[simp] theorem setVideo_pc (vid : Video) : (s.setVideo vid).pc = s.pc := rfl
@[simp] theorem setVideo_sp (vid : Video) : (s.setVideo vid).sp = s.sp := rfl
@[simp] theorem setVideo_stack (vid : Video) : (s.setVideo vid).stack = s.stack := rfl
@[simp] theorem setVideo_dt (vid : Video) : (s.setVideo vid).dt = s.dt := rfl
@[simp] theorem setVideo_st (vid : Video) : (s.setVideo vid).st = s.st := rfl
@[simp] theorem setVideo_mem (vid : Video) : (s.setVideo vid).mem = s.mem := rfl
@[simp] theorem setVideo_video (vid : Video) : (s.setVideo vid).video = vid := rfl
@[simp] theorem setVideo_keys (vid : Video) : (s.setVideo vid).keys = s.keys := rfl
@[simp] theorem setVideo_op (vid : Video) : (s.setVideo vid).op = s.op := rfl
@[simp] theorem setVideo_phase (vid : Video) : (s.setVideo vid).phase = s.phase := rfl
@[simp] theorem setVideo_depth (vid : Video) : (s.setVideo vid).depth = s.depth := rfl
@[simp] theorem setVideo_params (vid : Video) : (s.setVideo vid).params = s.params := rfl
@[simp] theorem setVideo_event (vid : Video) : (s.setVideo vid).event = s.event := rfl
@[simp] theorem setVideo_ticks (vid : Video) : (s.setVideo vid).ticks = s.ticks := rfl
@[simp] theorem setVideo_v (vid : Video) (r : Reg) : (s.setVideo vid).v r = s.v r := rfl
@[simp] theorem setVideo_stackAt (vid : Video) (l : BitVec 4) : (s.setVideo vid).stackAt l = s.stackAt l := rfl
@[simp] theorem setVideo_key (vid : Video) (l : Fin 16) : (s.setVideo vid).key l = s.key l := rfl
@[simp] theorem setVideo_byteAt (vid : Video) (l : Nat) : (s.setVideo vid).byteAt l = s.byteAt l := rfl

/-! ### `setKeys` -/

@[simp] theorem setKeys_regs (k : Keypad) : (s.setKeys k).regs = s.regs := rfl
@[simp] theorem setKeys_index (k : Keypad) : (s.setKeys k).index = s.index := rfl
@[simp] theorem setKeys_pc (k : Keypad) : (s.setKeys k).pc = s.pc := rfl
@[simp] theorem setKeys_sp (k : Keypad) : (s.setKeys k).sp = s.sp := rfl
@[simp] theorem setKeys_stack (k : Keypad) : (s.setKeys k).stack = s.stack := rfl
@[simp] theorem setKeys_dt (k : Keypad) : (s.setKeys k).dt = s.dt := rfl
@[simp] theorem setKeys_st (k : Keypad) : (s.setKeys k).st = s.st := rfl
@[simp] theorem setKeys_mem (k : Keypad) : (s.setKeys k).mem = s.mem := rfl
@[simp] theorem setKeys_video (k : Keypad) : (s.setKeys k).video = s.video := rfl
@[simp] theorem setKeys_keys (k : Keypad) : (s.setKeys k).keys = k := rfl
@[simp] theorem setKeys_op (k : Keypad) : (s.setKeys k).op = s.op := rfl
@[simp] theorem setKeys_phase (k : Keypad) : (s.setKeys k).phase = s.phase := rfl
@[simp] theorem setKeys_depth (k : Keypad) : (s.setKeys k).depth = s.depth := rfl
@[simp] theorem setKeys_params (k : Keypad) : (s.setKeys k).params = s.params := rfl
@[simp] theorem setKeys_event (k : Keypad) : (s.setKeys k).event = s.event := rfl
@[simp] theorem setKeys_ticks (k : Keypad) : (s.setKeys k).ticks = s.ticks := rfl
@[simp] theorem setKeys_v (k : Keypad) (r : Reg) : (s.setKeys k).v r = s.v r := rfl
@[simp] theorem setKeys_stackAt (k : Keypad) (l : BitVec 4) : (s.setKeys k).stackAt l = s.stackAt l := rfl
@[simp] theorem setKeys_byteAt (k : Keypad) (l : Nat) : (s.setKeys k).byteAt l = s.byteAt l := rfl

/-! ### `setOp` -/

@[simp] theorem setOp_regs (w : Word) : (s.setOp w).regs = s.regs := rfl
@[simp] theorem setOp_index (w : Word) : (s.setOp w).index = s.index := rfl
@[simp] theorem setOp_pc (w : Word) : (s.setOp w).pc = s.pc := rfl
@[simp] theorem setOp_sp (w : Word) : (s.setOp w).sp = s.sp := rfl
@[simp] theorem setOp_stack (w : Word) : (s.setOp w).stack = s.stack := rfl
@[simp] theorem setOp_dt (w : Word) : (s.setOp w).dt = s.dt := rfl
@[simp] theorem setOp_st (w : Word) : (s.setOp w).st = s.st := rfl
@[simp] theorem setOp_mem (w : Word) : (s.setOp w).mem = s.mem := rfl
@[simp] theorem setOp_video (w : Word) : (s.setOp w).video = s.video := rfl
@[simp] theorem setOp_keys (w : Word) : (s.setOp w).keys = s.keys := rfl
@[simp] theorem setOp_op (w : Word) : (s.setOp w).op = w := rfl
@[simp] theorem setOp_phase (w : Word) : (s.setOp w).phase = s.phase := rfl
@[simp] theorem setOp_depth (w : Word) : (s.setOp w).depth = s.depth := rfl
@[simp] theorem setOp_params (w : Word) : (s.setOp w).params = s.params := rfl
@[simp] theorem setOp_event (w : Word) : (s.setOp w).event = s.event := rfl
@[simp] theorem setOp_ticks (w : Word) : (s.setOp w).ticks = s.ticks := rfl
@[simp] theorem setOp_v (w : Word) (r : Reg) : (s.setOp w).v r = s.v r := rfl
@[simp] theorem setOp_stackAt (w : Word) (l : BitVec 4) : (s.setOp w).stackAt l = s.stackAt l := rfl
@[simp] theorem setOp_key (w : Word) (l : Fin 16) : (s.setOp w).key l = s.key l := rfl
@[simp] theorem setOp_byteAt (w : Word) (l : Nat) : (s.setOp w).byteAt l = s.byteAt l := rfl

/-! ### `setPhase` -/

@[simp] theorem setPhase_regs (p : Phase) : (s.setPhase p).regs = s.regs := rfl
@[simp] theorem setPhase_index (p : Phase) : (s.setPhase p).index = s.index := rfl
@[simp] theorem setPhase_pc (p : Phase) : (s.setPhase p).pc = s.pc := rfl
@[simp] theorem setPhase_sp (p : Phase) : (s.setPhase p).sp = s.sp := rfl
@[simp] theorem setPhase_stack (p : Phase) : (s.setPhase p).stack = s.stack := rfl
@[simp] theorem setPhase_dt (p : Phase) : (s.setPhase p).dt = s.dt := rfl
@[simp] theorem setPhase_st (p : Phase) : (s.setPhase p).st = s.st := rfl
@[simp] theorem setPhase_mem (p : Phase) : (s.setPhase p).mem = s.mem := rfl
@[simp] theorem setPhase_video (p : Phase) : (s.setPhase p).video = s.video := rfl
@[simp] theorem setPhase_keys (p : Phase) : (s.setPhase p).keys = s.keys := rfl
@[simp] theorem setPhase_op (p : Phase) : (s.setPhase p).op = s.op := rfl
@[simp] theorem setPhase_phase (p : Phase) : (s.setPhase p).phase = p := rfl
@[simp] theorem setPhase_depth (p : Phase) : (s.setPhase p).depth = s.depth := rfl
@[simp] theorem setPhase_params (p : Phase) : (s.setPhase p).params = s.params := rfl
@[simp] theorem setPhase_event (p : Phase) : (s.setPhase p).event = s.event := rfl
@[simp] theorem setPhase_ticks (p : Phase) : (s.setPhase p).ticks = s.ticks := rfl
@[simp] theorem setPhase_v (p : Phase) (r : Reg) : (s.setPhase p).v r = s.v r := rfl
@[simp] theorem setPhase_stackAt (p : Phase) (l : BitVec 4) : (s.setPhase p).stackAt l = s.stackAt l := rfl
@[simp] theorem setPhase_key (p : Phase) (l : Fin 16) : (s.setPhase p).key l = s.key l := rfl
@[simp] theorem setPhase_byteAt (p : Phase) (l : Nat) : (s.setPhase p).byteAt l = s.byteAt l := rfl

/-! ### `setDepth` -/

@[simp] theorem setDepth_regs (d : Nat) : (s.setDepth d).regs = s.regs := rfl
@[simp] theorem setDepth_index (d : Nat) : (s.setDepth d).index = s.index := rfl
@[simp] theorem setDepth_pc (d : Nat) : (s.setDepth d).pc = s.pc := rfl
@[simp] theorem setDepth_sp (d : Nat) : (s.setDepth d).sp = s.sp := rfl
@[simp] theorem setDepth_stack (d : Nat) : (s.setDepth d).stack = s.stack := rfl
@[simp] theorem setDepth_dt (d : Nat) : (s.setDepth d).dt = s.dt := rfl
@[simp] theorem setDepth_st (d : Nat) : (s.setDepth d).st = s.st := rfl
@[simp] theorem setDepth_mem (d : Nat) : (s.setDepth d).mem = s.mem := rfl
@[simp] theorem setDepth_video (d : Nat) : (s.setDepth d).video = s.video := rfl
@[simp] theorem setDepth_keys (d : Nat) : (s.setDepth d).keys = s.keys := rfl
@[simp] theorem setDepth_op (d : Nat) : (s.setDepth d).op = s.op := rfl
@[simp] theorem setDepth_phase (d : Nat) : (s.setDepth d).phase = s.phase := rfl
@[simp] theorem setDepth_depth (d : Nat) : (s.setDepth d).depth = d := rfl
@[simp] theorem setDepth_params (d : Nat) : (s.setDepth d).params = s.params := rfl
@[simp] theorem setDepth_event (d : Nat) : (s.setDepth d).event = s.event := rfl
@[simp] theorem setDepth_ticks (d : Nat) : (s.setDepth d).ticks = s.ticks := rfl
@[simp] theorem setDepth_v (d : Nat) (r : Reg) : (s.setDepth d).v r = s.v r := rfl
@[simp] theorem setDepth_stackAt (d : Nat) (l : BitVec 4) : (s.setDepth d).stackAt l = s.stackAt l := rfl
@[simp] theorem setDepth_key (d : Nat) (l : Fin 16) : (s.setDepth d).key l = s.key l := rfl
@[simp] theorem setDepth_byteAt (d : Nat) (l : Nat) : (s.setDepth d).byteAt l = s.byteAt l := rfl

/-! ### `setEvent` -/

@[simp] theorem setEvent_regs (e : Option Unrecognized) : (s.setEvent e).regs = s.regs := rfl
@[simp] theorem setEvent_index (e : Option Unrecognized) : (s.setEvent e).index = s.index := rfl
@[simp] theorem setEvent_pc (e : Option Unrecognized) : (s.setEvent e).pc = s.pc := rfl
@[simp] theorem setEvent_sp (e : Option Unrecognized) : (s.setEvent e).sp = s.sp := rfl
@[simp] theorem setEvent_stack (e : Option Unrecognized) : (s.setEvent e).stack = s.stack := rfl
@[simp] theorem setEvent_dt (e : Option Unrecognized) : (s.setEvent e).dt = s.dt := rfl
@[simp] theorem setEvent_st (e : Option Unrecognized) : (s.setEvent e).st = s.st := rfl
@[simp] theorem setEvent_mem (e : Option Unrecognized) : (s.setEvent e).mem = s.mem := rfl
@[simp] theorem setEvent_video (e : Option Unrecognized) : (s.setEvent e).video = s.video := rfl
@[simp] theorem setEvent_keys (e : Option Unrecognized) : (s.setEvent e).keys = s.keys := rfl
@[simp] theorem setEvent_op (e : Option Unrecognized) : (s.setEvent e).op = s.op := rfl
@[simp] theorem setEvent_phase (e : Option Unrecognized) : (s.setEvent e).phase = s.phase := rfl
@[simp] theorem setEvent_depth (e : Option Unrecognized) : (s.setEvent e).depth = s.depth := rfl
@[simp] theorem setEvent_params (e : Option Unrecognized) : (s.setEvent e).params = s.params := rfl
@[simp] theorem setEvent_event (e : Option Unrecognized) : (s.setEvent e).event = e := rfl
@[simp] theorem setEvent_ticks (e : Option Unrecognized) : (s.setEvent e).ticks = s.ticks := rfl
@[simp] theorem setEvent_v (e : Option Unrecognized) (r : Reg) : (s.setEvent e).v r = s.v r := rfl
@[simp] theorem setEvent_stackAt (e : Option Unrecognized) (l : BitVec 4) : (s.setEvent e).stackAt l = s.stackAt l := rfl
@[simp] theorem setEvent_key (e : Option Unrecognized) (l : Fin 16) : (s.setEvent e).key l = s.key l := rfl
@[simp] theorem setEvent_byteAt (e : Option Unrecognized) (l : Nat) : (s.setEvent e).byteAt l = s.byteAt l := rfl

/-! ### `setTicks` -/

@[simp] theorem setTicks_regs (n : Nat) : (s.setTicks n).regs = s.regs := rfl
@[simp] theorem setTicks_index (n : Nat) : (s.setTicks n).index = s.index := rfl
@[simp] theorem setTicks_pc (n : Nat) : (s.setTicks n).pc = s.pc := rfl
@[simp] theorem setTicks_sp (n : Nat) : (s.setTicks n).sp = s.sp := rfl
@[simp] theorem setTicks_stack (n : Nat) : (s.setTicks n).stack = s.stack := rfl
@[simp] theorem setTicks_dt (n : Nat) : (s.setTicks n).dt = s.dt := rfl
@[simp] theorem setTicks_st (n : Nat) : (s.setTicks n).st = s.st := rfl
@[simp] theorem setTicks_mem (n : Nat) : (s.setTicks n).mem = s.mem := rfl
@[simp] theorem setTicks_video (n : Nat) : (s.setTicks n).video = s.video := rfl
@[simp] theorem setTicks_keys (n : Nat) : (s.setTicks n).keys = s.keys := rfl
@[simp] theorem setTicks_op (n : Nat) : (s.setTicks n).op = s.op := rfl
@[simp] theorem setTicks_phase (n : Nat) : (s.setTicks n).phase = s.phase := rfl
@[simp] theorem setTicks_depth (n : Nat) : (s.setTicks n).depth = s.depth := rfl
@[simp] theorem setTicks_params (n : Nat) : (s.setTicks n).params = s.params := rfl
@[simp] theorem setTicks_event (n : Nat) : (s.setTicks n).event = s.event := rfl
@[simp] theorem setTicks_ticks (n : Nat) : (s.setTicks n).ticks = n := rfl
@[simp] theorem setTicks_v (n : Nat) (r : Reg) : (s.setTicks n).v r = s.v r := rfl
@[simp] theorem setTicks_stackAt (n : Nat) (l : BitVec 4) : (s.setTicks n).stackAt l = s.stackAt l := rfl
@[simp] theorem setTicks_key (n : Nat) (l : Fin 16) : (s.setTicks n).key l = s.key l := rfl
@[simp] theorem setTicks_byteAt (n : Nat) (l : Nat) : (s.setTicks n).byteAt l = s.byteAt l := rfl

/-! ### The components with an index -/

/-- A write of a register is read back, and no other register changes. -/
@[simp] theorem setV_v (x r : Reg) (b : Byte) : (s.setV x b).v r = if r = x then b else s.v r := by
  simp only [v, setV, Vector.getElem_set, Fin.ext_iff, eq_comm]

/-- A write of a stack entry is read back, and no other entry changes. -/
@[simp] theorem setStackAt_stackAt (j l : BitVec 4) (a : Word) :
    (s.setStackAt j a).stackAt l = if l = j then a else s.stackAt l := by
  simp only [stackAt, setStackAt, Vector.getElem_set, ← BitVec.toNat_inj, eq_comm]

/-- Two register files with the same registers are the same. -/
theorem regs_ext {s t : State} (h : ∀ r, t.v r = s.v r) : t.regs = s.regs :=
  Vector.ext fun i hi => h ⟨i, hi⟩

/-! ### `setTickRate` -/

@[simp] theorem setTickRate_regs (rate : Option Nat) : (s.setTickRate rate).regs = s.regs := rfl
@[simp] theorem setTickRate_index (rate : Option Nat) : (s.setTickRate rate).index = s.index := rfl
@[simp] theorem setTickRate_pc (rate : Option Nat) : (s.setTickRate rate).pc = s.pc := rfl
@[simp] theorem setTickRate_sp (rate : Option Nat) : (s.setTickRate rate).sp = s.sp := rfl
@[simp] theorem setTickRate_stack (rate : Option Nat) : (s.setTickRate rate).stack = s.stack := rfl
@[simp] theorem setTickRate_dt (rate : Option Nat) : (s.setTickRate rate).dt = s.dt := rfl
@[simp] theorem setTickRate_st (rate : Option Nat) : (s.setTickRate rate).st = s.st := rfl
@[simp] theorem setTickRate_mem (rate : Option Nat) : (s.setTickRate rate).mem = s.mem := rfl
@[simp] theorem setTickRate_video (rate : Option Nat) : (s.setTickRate rate).video = s.video := rfl
@[simp] theorem setTickRate_keys (rate : Option Nat) : (s.setTickRate rate).keys = s.keys := rfl
@[simp] theorem setTickRate_op (rate : Option Nat) : (s.setTickRate rate).op = s.op := rfl
@[simp] theorem setTickRate_phase (rate : Option Nat) : (s.setTickRate rate).phase = s.phase := rfl
@[simp] theorem setTickRate_depth (rate : Option Nat) : (s.setTickRate rate).depth = s.depth := rfl
@[simp] theorem setTickRate_event (rate : Option Nat) : (s.setTickRate rate).event = s.event := rfl
@[simp] theorem setTickRate_ticks (rate : Option Nat) : (s.setTickRate rate).ticks = s.ticks := rfl
@[simp] theorem setTickRate_params (rate : Option Nat) :
    (s.setTickRate rate).params = { s.params with tickRate := rate } := rfl
@[simp] theorem setTickRate_v (rate : Option Nat) (r : Reg) : (s.setTickRate rate).v r = s.v r := rfl
@[simp] theorem setTickRate_stackAt (rate : Option Nat) (l : BitVec 4) :
    (s.setTickRate rate).stackAt l = s.stackAt l := rfl
@[simp] theorem setTickRate_key (rate : Option Nat) (l : Fin 16) : (s.setTickRate rate).key l = s.key l := rfl
@[simp] theorem setTickRate_byteAt (rate : Option Nat) (l : Nat) : (s.setTickRate rate).byteAt l = s.byteAt l := rfl

/-! ### The shared operations in terms of the updates -/

@[simp] theorem advance_eq : s.advance = s.setPc (s.pc + 2) := rfl
@[simp] theorem skipIf_true : s.skipIf true = s.setPc (s.pc + 2) := rfl
@[simp] theorem skipIf_false : s.skipIf false = s := rfl
@[simp] theorem push_eq : s.push = (s.setSp (s.sp + 1)).setStackAt (s.sp + 1) s.pc := rfl
@[simp] theorem pop_eq : s.pop = (s.setPc (s.stackAt s.sp)).setSp (s.sp - 1) := rfl
@[simp] theorem timerStep_eq : s.timerStep = (s.setDt (countDown s.dt)).setSt (countDown s.st) := rfl
@[simp] theorem endTick_eq : s.endTick = (s.timerStep.setPhase .run).setTicks (s.ticks + 1) := rfl
@[simp] theorem takeFault_eq (k : FaultKind) :
    s.takeFault k = (s.setPhase (.faulted k s.pc)).setEvent none := rfl
@[simp] theorem latch_eq (w : Word) : s.latch w = ((s.setOp w).setEvent none).setPc (s.pc + 2) := rfl

theorem countDepth_wrap {s : State} (h : s.params.stack = .wrap) (d : Nat) : s.countDepth d = s := by
  simp [countDepth, h]

theorem countDepth_fault {s : State} (h : s.params.stack = .fault) (d : Nat) : s.countDepth d = s.setDepth d := by
  simp [countDepth, h]

/-- A timer counts down to 0 and stays there (R83). -/
theorem countDown_toNat (t : Byte) : (countDown t).toNat = t.toNat - 1 := by
  unfold countDown
  split <;> bv_omega

end Sys2Proof.Machine.State
end

