-- ==== Sys2Proof/Laws/Ops.lean ====
section
/-! SUPPORT. One lemma for each shared operation that says once everything it can do. -/

namespace Sys2Proof.Machine

/-! ### Addresses (R51, R52) -/

theorem cellOf_lt (a : Word) : State.cellOf a < Config.memSize := Nat.mod_lt _ (by decide)

theorem offsetAddr_succ (a : Word) (k : Nat) : offsetAddr (a + 1) k = offsetAddr a (k + 1) := by
  apply BitVec.eq_of_toNat_eq
  simp only [offsetAddr, BitVec.ofNat_eq_ofNat, BitVec.toNat_add, BitVec.toNat_ofNat]
  omega

@[simp] theorem offsetAddr_zero (a : Word) : offsetAddr a 0 = a := by simp [offsetAddr]

/-- The bytes of one access are distinct: an access reaches at most 4096. -/
theorem cellOf_offset_inj {a : Word} {j k : Nat} (hj : j < Config.memSize) (hk : k < Config.memSize)
    (h : State.cellOf (offsetAddr a j) = State.cellOf (offsetAddr a k)) : j = k := by
  simp only [State.cellOf, offsetAddr, Config.memSize, BitVec.toNat_add, BitVec.toNat_ofNat] at *
  omega

theorem outOfRange_iff {s : State} {a : Word} :
    s.outOfRange a = true ↔ s.params.oob = .fault ∧ Config.memSize ≤ a.toNat := by simp [State.outOfRange]

theorem Accessible.head {s : State} {a : Word} {n : Nat} (h : Accessible s a (n + 1)) : s.outOfRange a = false := by
  rw [Bool.eq_false_iff, Ne, outOfRange_iff]
  rintro ⟨hf, hl⟩
  have := h hf 0 (by omega)
  simp only [offsetAddr_zero] at this
  omega

theorem Accessible.tail {s : State} {a : Word} {n : Nat} (h : Accessible s a (n + 1)) : Accessible s (a + 1) n := by
  intro hf k hk
  rw [offsetAddr_succ]
  exact h hf (k + 1) (by omega)

/-- An access either raises no fault or has a first byte that raises one. -/
theorem accessible_or_first (s : State) (a : Word) (n : Nat) :
    Accessible s a n ∨ ∃ k, FirstOutOfRange s a n k := by
  by_cases hf : s.params.oob = .fault
  · induction n with
    | zero => exact .inl fun _ k hk => absurd hk (by omega)
    | succ n ih =>
      obtain h | ⟨k, h1, h2, h3⟩ := ih
      · by_cases hn : Config.memSize ≤ (offsetAddr a n).toNat
        · exact .inr ⟨n, hf, by omega, hn, h hf⟩
        · refine .inl fun _ k hk => ?_
          obtain rfl | hk := (show k = n ∨ k < n by omega)
          · omega
          · exact h hf k hk
      · exact .inr ⟨k, h1, by omega, h3⟩
  · exact .inl fun h => absurd h hf

theorem FirstOutOfRange.not_accessible {s : State} {a : Word} {n k : Nat} (h : FirstOutOfRange s a n k) :
    ¬ Accessible s a n := fun ha => absurd (ha h.1 k h.2.1) (by have := h.2.2.1; omega)

theorem FirstOutOfRange.head {s : State} {a : Word} {n : Nat} (h : FirstOutOfRange s a n 0) :
    s.outOfRange a = true := by
  have := h.2.2.1
  rw [offsetAddr_zero] at this
  exact outOfRange_iff.2 ⟨h.1, this⟩

theorem FirstOutOfRange.tail {s : State} {a : Word} {n k : Nat} (h : FirstOutOfRange s a (n + 1) (k + 1)) :
    s.outOfRange a = false ∧ FirstOutOfRange s (a + 1) n k := by
  obtain ⟨h1, h2, h3, h4⟩ := h
  refine ⟨?_, h1, by omega, by rwa [offsetAddr_succ], fun j hj => ?_⟩
  · rw [Bool.eq_false_iff, Ne, outOfRange_iff]
    have := h4 0 (by omega)
    rw [offsetAddr_zero] at this
    omega
  · rw [offsetAddr_succ]
    exact h4 (j + 1) (by omega)

/-! ### Reads -/

theorem loadBytes_ok {n : Nat} : ∀ {s : State} {a : Word}, Accessible s a n →
    s.loadBytes a n = .ok ((List.range n).map fun k => s.byteAt (State.cellOf (offsetAddr a k))) := by
  induction n with
  | zero => intros; rfl
  | succ n ih =>
    intro s a h
    rw [State.loadBytes, State.memRead, h.head]
    simp only [Bool.false_eq_true, if_false, ih h.tail, offsetAddr_succ]
    rw [List.range_succ_eq_map, List.map_cons, List.map_map, offsetAddr_zero]
    rfl

theorem loadBytes_fault {n : Nat} : ∀ {s : State} {a : Word} {k : Nat}, FirstOutOfRange s a n k →
    s.loadBytes a n = .error (.memOutOfRange (offsetAddr a k)) := by
  induction n with
  | zero => intro _ _ _ h; exact absurd h.2.1 (by omega)
  | succ n ih =>
    intro s a k h
    rw [State.loadBytes, State.memRead]
    cases k with
    | zero => simp [h.head]
    | succ k =>
      obtain ⟨h1, h2⟩ := h.tail
      simp only [h1, Bool.false_eq_true, if_false, ih h2, offsetAddr_succ]

/-- What a load that answers bytes says: the access raised no fault, and the bytes are those of memory. -/
theorem loadBytes_inv {s : State} {a : Word} {n : Nat} {bs : List Byte} (h : s.loadBytes a n = .ok bs) :
    Accessible s a n ∧ bs = (List.range n).map fun k => s.byteAt (State.cellOf (offsetAddr a k)) := by
  obtain ha | ⟨k, hk⟩ := accessible_or_first s a n
  · rw [loadBytes_ok ha] at h
    exact ⟨ha, (Except.ok.inj h).symm⟩
  · rw [loadBytes_fault hk] at h
    exact absurd h (by simp)

/-- The fetch, byte by byte (R53, R74). -/
theorem fetch_eq (s : State) : s.fetch =
    match s.loadBytes s.pc 2 with
    | .ok [hi, lo] => .ok (wordOfBytes hi lo)
    | .ok _ => .ok 0
    | .error k => .error k := by
  simp only [State.fetch, State.loadBytes]
  cases s.memRead s.pc with
  | error k => rfl
  | ok hi => cases s.memRead (s.pc + 1) <;> rfl

theorem fetch_ok {s : State} (h : Accessible s s.pc 2) :
    s.fetch = .ok (wordOfBytes (s.byteAt (State.cellOf s.pc)) (s.byteAt (State.cellOf (s.pc + 1)))) := by
  rw [fetch_eq, loadBytes_ok h]
  simp [List.range_succ, offsetAddr]

theorem fetch_fault {s : State} {k : Nat} (h : FirstOutOfRange s s.pc 2 k) :
    s.fetch = .error (.memOutOfRange (offsetAddr s.pc k)) := by
  rw [fetch_eq, loadBytes_fault h]

theorem fetch_inv {s : State} {w : Word} (h : s.fetch = .ok w) : Accessible s s.pc 2 ∧
    w = wordOfBytes (s.byteAt (State.cellOf s.pc)) (s.byteAt (State.cellOf (s.pc + 1))) := by
  obtain ha | ⟨k, hk⟩ := accessible_or_first s s.pc 2
  · rw [fetch_ok ha] at h
    exact ⟨ha, (Except.ok.inj h).symm⟩
  · rw [fetch_fault hk] at h
    exact absurd h (by simp)

/-! ### Writes -/

/-- A store that raises no fault: only memory changes, it stays canonical, byte `k` lands at the `k`-th address, and
every other byte is as before. -/
theorem storeBytes_ok (bs : List Byte) : ∀ {s : State} {a : Word}, s.mem.wf s.params.font = true →
    bs.length ≤ Config.memSize → Accessible s a bs.length →
    ∃ m, s.storeBytes a bs = .ok (s.setMem m) ∧ m.wf s.params.font = true ∧
      (∀ k (h : k < bs.length), (s.setMem m).byteAt (State.cellOf (offsetAddr a k)) = bs[k]) ∧
      ∀ b, (∀ k < bs.length, b ≠ State.cellOf (offsetAddr a k)) → (s.setMem m).byteAt b = s.byteAt b := by
  induction bs with
  | nil => intro s a hw _ _; exact ⟨s.mem, rfl, hw, fun k h => absurd h (by simp), fun _ _ => rfl⟩
  | cons v bs ih =>
    intro s a hw hl ha
    simp only [List.length_cons] at hl ha
    let m0 := s.mem.write s.params.font (State.cellOf a) v
    have hw0 : m0.wf s.params.font = true := Memory.wf_write hw (cellOf_lt a) v
    obtain ⟨m, h1, h2, h3, h4⟩ := ih (s := s.setMem m0) (a := a + 1) hw0 (by omega) ha.tail
    have h5 : ∀ b, (s.setMem m0).byteAt b = if b = State.cellOf a then v else s.byteAt b :=
      fun b => Memory.read_write hw (State.cellOf a) b v
    refine ⟨m, ?_, h2, fun k hk => ?_, fun b hb => ?_⟩
    · rw [State.storeBytes, State.memWrite, ha.head]
      exact h1
    · cases k with
      | zero =>
        have := h4 (State.cellOf (offsetAddr a 0)) fun k hk e => by
          rw [offsetAddr_succ] at e
          exact absurd (cellOf_offset_inj (by decide) (by omega) e) (by omega)
        rw [h5, offsetAddr_zero, if_pos rfl] at this
        exact (congrArg _ (congrArg _ (offsetAddr_zero a))).trans this
      | succ k =>
        simp only [List.length_cons] at hk
        have := h3 k (by omega)
        rw [offsetAddr_succ] at this
        exact this
    · have := h4 b fun k hk => by
        rw [offsetAddr_succ]
        exact hb (k + 1) (by simpa using hk)
      have hb0 := hb 0 (by simp)
      rw [offsetAddr_zero] at hb0
      rw [h5, if_neg hb0] at this
      exact this

theorem storeBytes_fault (bs : List Byte) : ∀ {s : State} {a : Word} {k : Nat}, FirstOutOfRange s a bs.length k →
    s.storeBytes a bs = .error (.memOutOfRange (offsetAddr a k)) := by
  induction bs with
  | nil => intro _ _ _ h; exact absurd h.2.1 (by simp)
  | cons v bs ih =>
    intro s a k h
    rw [State.storeBytes, State.memWrite]
    cases k with
    | zero => simp [h.head]
    | succ k =>
      obtain ⟨h1, h2⟩ := h.tail
      rw [h1]
      simp only [Bool.false_eq_true, if_false]
      rw [← offsetAddr_succ]
      exact ih h2

/-- What a store that answers a state says. -/
theorem storeBytes_inv {s t : State} {a : Word} {bs : List Byte} (hw : s.mem.wf s.params.font = true)
    (hl : bs.length ≤ Config.memSize) (h : s.storeBytes a bs = .ok t) :
    Accessible s a bs.length ∧ t = s.setMem t.mem ∧ t.mem.wf s.params.font = true ∧
      (∀ k (h : k < bs.length), t.byteAt (State.cellOf (offsetAddr a k)) = bs[k]) ∧
      ∀ b, (∀ k < bs.length, b ≠ State.cellOf (offsetAddr a k)) → t.byteAt b = s.byteAt b := by
  obtain ha | ⟨k, hk⟩ := accessible_or_first s a bs.length
  · obtain ⟨m, h1, h2, h3, h4⟩ := storeBytes_ok bs hw hl ha
    rw [h1] at h
    obtain rfl := Except.ok.inj h
    exact ⟨ha, rfl, h2, h3, h4⟩
  · rw [storeBytes_fault bs hk] at h
    exact absurd h (by simp)

/-- A store changes nothing but memory, whatever the memory. -/
theorem storeBytes_frame (bs : List Byte) : ∀ {s t : State} {a : Word}, s.storeBytes a bs = .ok t →
    t = s.setMem t.mem := by
  induction bs with
  | nil => intro s t a h; obtain rfl := Except.ok.inj h; rfl
  | cons v bs ih =>
    intro s t a h
    rw [State.storeBytes, State.memWrite] at h
    split at h
    · exact absurd h (by simp)
    · rename_i u hu
      split at hu
      · exact absurd hu (by simp)
      · obtain rfl := Except.ok.inj hu
        rw [ih h]
        rfl

@[simp] theorem regsUpTo_length (s : State) (x : Reg) : (s.regsUpTo x).length = x.val + 1 := by
  have := x.isLt
  simp only [State.regsUpTo, List.length_take, Vector.length_toList]
  omega

theorem regsUpTo_getElem (s : State) (x : Reg) (k : Nat) (h : k < (s.regsUpTo x).length) :
    (s.regsUpTo x)[k] = s.v ⟨k, by rw [regsUpTo_length] at h; omega⟩ := by
  simp [State.regsUpTo, State.v]

@[simp] theorem decimalDigits_length (v : Byte) : (decimalDigits v).length = 3 := rfl

/-! ### Registers -/

/-- A block load of registers: register `r` gets the byte at its place in the list, every other keeps its value. -/
theorem setRegsFrom_v (bs : List Byte) : ∀ (s : State) (j : Nat) (r : Reg), (s.setRegsFrom j bs).v r =
    if h : j ≤ r.val ∧ r.val < j + bs.length then bs[r.val - j]'(by omega) else s.v r := by
  induction bs with
  | nil => intro s j r; simp [State.setRegsFrom]
  | cons b bs ih =>
    intro s j r
    rw [State.setRegsFrom, ih]
    by_cases h0 : r.val = j
    · have hj : j < 16 := h0 ▸ r.isLt
      have hr : r = ⟨j, hj⟩ := Fin.ext h0
      rw [dif_neg (by omega), dif_pos hj, dif_pos (by simp only [List.length_cons]; omega)]
      simp [hr]
    · have hne : ∀ (hj : j < 16), r ≠ ⟨j, hj⟩ := fun _ e => h0 (congrArg Fin.val e)
      have hs : (if h : j < 16 then s.setV ⟨j, h⟩ b else s).v r = s.v r := by
        split
        · rw [State.setV_v, if_neg (hne _)]
        · rfl
      by_cases h1 : j + 1 ≤ r.val ∧ r.val < j + 1 + bs.length
      · have e : r.val - j = (r.val - (j + 1)) + 1 := by omega
        rw [dif_pos h1, dif_pos (by simp only [List.length_cons]; omega)]
        simp only [e, List.getElem_cons_succ]
      · rw [dif_neg h1, hs, dif_neg (by simp only [List.length_cons]; omega)]

theorem setRegsFrom_frame (bs : List Byte) : ∀ (s : State) (j : Nat),
    s.setRegsFrom j bs = { s with regs := (s.setRegsFrom j bs).regs } := by
  induction bs with
  | nil => intros; rfl
  | cons b bs ih =>
    intro s j
    rw [State.setRegsFrom, ih]
    split <;> rfl

/-! ### Keys -/

theorem lowestPressed_some {s : State} {k : Fin 16} :
    lowestPressed s = some k ↔ s.key k = true ∧ ∀ j < k, s.key j = false := by
  rw [lowestPressed, List.find?_eq_some_iff_getElem]
  constructor
  · rintro ⟨hk, i, hi, e, hlt⟩
    refine ⟨hk, fun j hj => ?_⟩
    have hik : i = k.val := by simpa using congrArg Fin.val e
    simpa using hlt j.val (by omega)
  · rintro ⟨hk, hlt⟩
    exact ⟨hk, k.val, by simp, by simp, fun j hj => by simpa using hlt ⟨j, by omega⟩ hj⟩

theorem lowestPressed_none {s : State} : lowestPressed s = none ↔ ∀ k, s.key k = false := by
  simp [lowestPressed]

end Sys2Proof.Machine
end

