-- ==== Sys2Proof/Laws/PerInstr.lean ====
section
/-! SUPPORT. Laws about every instruction as syntax, one lemma per constructor. Family TableMatch: the canonical word of
an instruction has the fixed bits that its row of spec/opcode_table.json gives (mask and match). -/

namespace Sys2Proof.Laws.TableMatch

/-- The row's mask and match (spec/opcode_table.json). -/
def row : Instr → Word × Word
  | .cls => (0xF00F, 0x0000)
  | .ret => (0xF00F, 0x000E)
  | .jp _ => (0xF000, 0x1000)
  | .call _ => (0xF000, 0x2000)
  | .seImm _ _ => (0xF000, 0x3000)
  | .sneImm _ _ => (0xF000, 0x4000)
  | .seReg _ _ => (0xF000, 0x5000)
  | .ldImm _ _ => (0xF000, 0x6000)
  | .addImm _ _ => (0xF000, 0x7000)
  | .ldReg _ _ => (0xF00F, 0x8000)
  | .orReg _ _ => (0xF00F, 0x8001)
  | .andReg _ _ => (0xF00F, 0x8002)
  | .xorReg _ _ => (0xF00F, 0x8003)
  | .addReg _ _ => (0xF00F, 0x8004)
  | .subReg _ _ => (0xF00F, 0x8005)
  | .shr _ _ => (0xF00F, 0x8006)
  | .subnReg _ _ => (0xF00F, 0x8007)
  | .shl _ _ => (0xF00F, 0x800E)
  | .sneReg _ _ => (0xF000, 0x9000)
  | .ldI _ => (0xF000, 0xA000)
  | .jpV0 _ => (0xF000, 0xB000)
  | .rnd _ _ => (0xF000, 0xC000)
  | .drw _ _ _ => (0xF000, 0xD000)
  | .skp _ => (0xF00F, 0xE00E)
  | .sknp _ => (0xF00F, 0xE001)
  | .ldVxDT _ => (0xF0FF, 0xF007)
  | .ldVxK _ => (0xF0FF, 0xF00A)
  | .ldDTVx _ => (0xF0FF, 0xF015)
  | .ldSTVx _ => (0xF0FF, 0xF018)
  | .addI _ => (0xF0FF, 0xF01E)
  | .ldF _ => (0xF0FF, 0xF029)
  | .ldB _ => (0xF0FF, 0xF033)
  | .stMem _ => (0xF0FF, 0xF055)
  | .ldMem _ => (0xF0FF, 0xF065)

/-- The canonical word of the instruction is one that its row's mask selects. -/
def Statement (i : Instr) : Prop := encode i &&& (row i).1 = (row i).2

theorem and_all4 (v : BitVec 4) : v &&& 0xF#4 = v := BitVec.and_allOnes

theorem formatNNN_F000 (fam : BitVec 4) (nnn : Addr12) : formatNNN fam nnn &&& 0xF000 = fam ++ 0#12 :=
  (BitVec.and_append (x₁ := fam) (x₂ := 0xF#4) (y₁ := nnn) (y₂ := 0#12)).trans (by rw [and_all4, BitVec.and_zero])

theorem formatXKK_mask (fam : BitVec 4) (x : Reg) (kk m : Byte) :
    formatXKK fam x kk &&& ((0xF#4 ++ 0#4 : BitVec 8) ++ m) = (fam ++ 0#4 : BitVec 8) ++ (kk &&& m) := by
  rw [formatXKK, BitVec.and_append, BitVec.and_append, and_all4, BitVec.and_zero]

theorem formatXKK_F000 (fam : BitVec 4) (x : Reg) (kk : Byte) :
    formatXKK fam x kk &&& 0xF000 = (fam ++ 0#4 : BitVec 8) ++ 0#8 :=
  (formatXKK_mask fam x kk 0#8).trans (by rw [BitVec.and_zero])

theorem formatXYN_mask (fam : BitVec 4) (x y : Reg) (n m : BitVec 4) :
    formatXYN fam x y n &&& ((0xF#4 ++ 0#4 ++ 0#4 : BitVec 12) ++ m) =
      (fam ++ 0#4 ++ 0#4 : BitVec 12) ++ (n &&& m) := by
  rw [formatXYN, BitVec.and_append, BitVec.and_append, BitVec.and_append, and_all4, BitVec.and_zero, BitVec.and_zero]

theorem formatXYN_F000 (fam : BitVec 4) (x y : Reg) (n : BitVec 4) :
    formatXYN fam x y n &&& 0xF000 = (fam ++ 0#4 ++ 0#4 : BitVec 12) ++ 0#4 :=
  (formatXYN_mask fam x y n 0#4).trans (by rw [BitVec.and_zero])

theorem cls : Statement (.cls) := rfl
theorem ret : Statement (.ret) := rfl
theorem jp (nnn : Addr12) : Statement (.jp nnn) := formatNNN_F000 0x1 nnn
theorem call (nnn : Addr12) : Statement (.call nnn) := formatNNN_F000 0x2 nnn
theorem seImm (x : Reg) (kk : Byte) : Statement (.seImm x kk) := formatXKK_F000 0x3 x kk
theorem sneImm (x : Reg) (kk : Byte) : Statement (.sneImm x kk) := formatXKK_F000 0x4 x kk
theorem seReg (x y : Reg) : Statement (.seReg x y) := formatXYN_mask 0x5 x y _ 0x0
theorem ldImm (x : Reg) (kk : Byte) : Statement (.ldImm x kk) := formatXKK_F000 0x6 x kk
theorem addImm (x : Reg) (kk : Byte) : Statement (.addImm x kk) := formatXKK_F000 0x7 x kk
theorem ldReg (x y : Reg) : Statement (.ldReg x y) := formatXYN_mask 0x8 x y _ 0xF
theorem orReg (x y : Reg) : Statement (.orReg x y) := formatXYN_mask 0x8 x y _ 0xF
theorem andReg (x y : Reg) : Statement (.andReg x y) := formatXYN_mask 0x8 x y _ 0xF
theorem xorReg (x y : Reg) : Statement (.xorReg x y) := formatXYN_mask 0x8 x y _ 0xF
theorem addReg (x y : Reg) : Statement (.addReg x y) := formatXYN_mask 0x8 x y _ 0xF
theorem subReg (x y : Reg) : Statement (.subReg x y) := formatXYN_mask 0x8 x y _ 0xF
theorem shr (x y : Reg) : Statement (.shr x y) := formatXYN_mask 0x8 x y _ 0xF
theorem subnReg (x y : Reg) : Statement (.subnReg x y) := formatXYN_mask 0x8 x y _ 0xF
theorem shl (x y : Reg) : Statement (.shl x y) := formatXYN_mask 0x8 x y _ 0xF
theorem sneReg (x y : Reg) : Statement (.sneReg x y) := formatXYN_mask 0x9 x y _ 0x0
theorem ldI (nnn : Addr12) : Statement (.ldI nnn) := formatNNN_F000 0xA nnn
theorem jpV0 (nnn : Addr12) : Statement (.jpV0 nnn) := formatNNN_F000 0xB nnn
theorem rnd (x : Reg) (kk : Byte) : Statement (.rnd x kk) := formatXKK_F000 0xC x kk
theorem drw (x y : Reg) (n : Nat) : Statement (.drw x y n) := formatXYN_F000 0xD x y _
theorem skp (x : Reg) : Statement (.skp x) := formatXKK_mask 0xE x _ 0x0F
theorem sknp (x : Reg) : Statement (.sknp x) := formatXKK_mask 0xE x _ 0x0F
theorem ldVxDT (x : Reg) : Statement (.ldVxDT x) := formatXKK_mask 0xF x _ 0xFF
theorem ldVxK (x : Reg) : Statement (.ldVxK x) := formatXKK_mask 0xF x _ 0xFF
theorem ldDTVx (x : Reg) : Statement (.ldDTVx x) := formatXKK_mask 0xF x _ 0xFF
theorem ldSTVx (x : Reg) : Statement (.ldSTVx x) := formatXKK_mask 0xF x _ 0xFF
theorem addI (x : Reg) : Statement (.addI x) := formatXKK_mask 0xF x _ 0xFF
theorem ldF (x : Reg) : Statement (.ldF x) := formatXKK_mask 0xF x _ 0xFF
theorem ldB (x : Reg) : Statement (.ldB x) := formatXKK_mask 0xF x _ 0xFF
theorem stMem (x : Reg) : Statement (.stMem x) := formatXKK_mask 0xF x _ 0xFF
theorem ldMem (x : Reg) : Statement (.ldMem x) := formatXKK_mask 0xF x _ 0xFF

end Sys2Proof.Laws.TableMatch
end

