-- ==== Sys2Proof/Laws/Step.lean ====
section
/-! SUPPORT. What the meanings that can raise a model fault answer, when any meaning raises one, and the one inversion
of a step. -/

namespace Sys2Proof.Machine

/-! ### Encodings by their fields -/

theorem decodesAs_family {m : Word} {mk : Word → Instr}
    (h : ∀ op, family op = family m → decode op = .ok (mk op)) : DecodesAs m 0xF000 mk :=
  fun op hm => h op (family_of_masked hm rfl)

theorem decodesAs_lowNibble {m : Word} {mk : Word → Instr}
    (h : ∀ op, family op = family m → lowNibble op = lowNibble m → decode op = .ok (mk op)) : DecodesAs m 0xF00F mk :=
  fun op hm => h op (family_of_masked hm rfl) (lowNibble_of_masked hm rfl)

theorem decodesAs_lowByte {m : Word} {mk : Word → Instr}
    (h : ∀ op, family op = family m → fieldKK op = fieldKK m → decode op = .ok (mk op)) : DecodesAs m 0xF0FF mk :=
  fun op hm => h op (family_of_masked hm rfl) (fieldKK_of_masked hm rfl)

/-! ### The flags, shifts and counts as numbers -/

theorem carryFlag_toNat (a b : Byte) : (carryFlag a b).toNat = if a.toNat + b.toNat > 255 then 1 else 0 := by
  unfold carryFlag flagByte
  by_cases h : 255 < a.toNat + b.toNat <;> simp [h]

theorem greaterFlag_toNat (a b : Byte) : (greaterFlag a b).toNat = if a.toNat > b.toNat then 1 else 0 := by
  unfold greaterFlag flagByte
  by_cases h : b.toNat < a.toNat <;> simp [h]

theorem rightBitFlag_toNat (a : Byte) : (rightBitFlag a).toNat = a.toNat % 2 := by revert a; decide

theorem leftBitFlag_toNat (a : Byte) : (leftBitFlag a).toNat = a.toNat / 128 := by revert a; decide

theorem shiftRight_one_toNat (a : Byte) : (a >>> 1).toNat = a.toNat / 2 := by revert a; decide

theorem shiftLeft_one_toNat (a : Byte) : (a <<< 1).toNat = 2 * a.toNat % 256 := by revert a; decide

theorem sub_byte_toNat (a b : Byte) : (a - b).toNat = (a.toNat + 256 - b.toNat) % 256 := by bv_omega

theorem keySel_ok {policy : KeyPolicy} {v : Byte} (h : ¬(policy = .fault ∧ 15 < v.toNat)) :
    keySel policy v = .ok (Fin.ofNat 16 v.toNat) := if_neg h

theorem keySel_fault {policy : KeyPolicy} {v : Byte} (h : policy = .fault ∧ 15 < v.toNat) :
    keySel policy v = .error (.keyOutOfRange v) := if_pos h

/-! ### The meanings that can raise a fault -/

variable {s t : State}

theorem FirstOutOfRange.raisable {a : Word} {n k : Nat} (h : FirstOutOfRange s a n k) :
    (FaultKind.memOutOfRange (offsetAddr a k)).Raisable s := ⟨h.1, h.2.2.1⟩

/-- A block load answers bytes, or raises a fault for its first byte out of range. -/
theorem loadBytes_cases (s : State) (a : Word) (n : Nat) : (∃ bs, s.loadBytes a n = .ok bs) ∨
    ∃ k, s.loadBytes a n = .error k ∧ k.Raisable s := by
  obtain h | ⟨k, h⟩ := accessible_or_first s a n
  · exact .inl ⟨_, loadBytes_ok h⟩
  · exact .inr ⟨_, loadBytes_fault h, h.raisable⟩

/-- A block store raises a fault exactly when its access does. -/
theorem storeBytes_total (bs : List Byte) : ∀ {s : State} {a : Word}, Accessible s a bs.length →
    ∃ m, s.storeBytes a bs = .ok (s.setMem m) := by
  induction bs with
  | nil => intro s a _; exact ⟨s.mem, rfl⟩
  | cons b bs ih =>
    intro s a h
    obtain ⟨m, hm⟩ := ih (s := s.setMem (s.mem.write s.params.font (State.cellOf a) b)) (a := a + 1) h.tail
    exact ⟨m, by rw [State.storeBytes, State.memWrite, h.head]; exact hm⟩

theorem storeBytes_cases (s : State) (a : Word) (bs : List Byte) : (∃ m, s.storeBytes a bs = .ok (s.setMem m)) ∨
    ∃ k, s.storeBytes a bs = .error k ∧ k.Raisable s := by
  obtain h | ⟨k, h⟩ := accessible_or_first s a bs.length
  · exact .inl (storeBytes_total bs h)
  · exact .inr ⟨_, storeBytes_fault bs h, h.raisable⟩

/-- Every meaning answers a next state, or raises a fault whose condition holds (the table of R223). -/
theorem exec_cases (i : Instr) (s : State) :
    (∃ t, exec i s = .next t) ∨ ∃ k, exec i s = .fault (.raised k) ∧ k.Raisable s := by
  have key (x : Reg) : (∃ k, keySel s.params.key (s.v x) = .ok k) ∨
      ∃ k, keySel s.params.key (s.v x) = .error k ∧ k.Raisable s := by
    by_cases h : s.params.key = .fault ∧ 15 < (s.v x).toNat
    · exact .inr ⟨_, keySel_fault h, h⟩
    · exact .inl ⟨_, keySel_ok h⟩
  cases i with
  | ret =>
    simp only [exec, execRet]
    split
    · exact .inr ⟨.stackUnderflow, rfl, ‹_›⟩
    · exact .inl ⟨_, rfl⟩
  | call nnn =>
    simp only [exec, execCall]
    split
    · exact .inr ⟨.stackOverflow, rfl, ‹_›⟩
    · exact .inl ⟨_, rfl⟩
  | drw x y n =>
    simp only [exec, execDrw]
    obtain ⟨bs, h⟩ | ⟨k, h, hr⟩ := loadBytes_cases s s.index n <;> rw [h]
    · exact .inl ⟨_, rfl⟩
    · exact .inr ⟨k, rfl, hr⟩
  | ldMem x =>
    simp only [exec, execLdMem]
    obtain ⟨bs, h⟩ | ⟨k, h, hr⟩ := loadBytes_cases s s.index (x.val + 1) <;> rw [h]
    · exact .inl ⟨_, rfl⟩
    · exact .inr ⟨k, rfl, hr⟩
  | ldB x =>
    simp only [exec, execLdB]
    obtain ⟨m, h⟩ | ⟨k, h, hr⟩ := storeBytes_cases s s.index (decimalDigits (s.v x)) <;> rw [h]
    · exact .inl ⟨_, rfl⟩
    · exact .inr ⟨k, rfl, hr⟩
  | stMem x =>
    simp only [exec, execStMem]
    obtain ⟨m, h⟩ | ⟨k, h, hr⟩ := storeBytes_cases s s.index (s.regsUpTo x) <;> rw [h]
    · exact .inl ⟨_, rfl⟩
    · exact .inr ⟨k, rfl, hr⟩
  | skp x =>
    simp only [exec, execSkp]
    obtain ⟨j, h⟩ | ⟨k, h, hr⟩ := key x <;> rw [h]
    · exact .inl ⟨_, rfl⟩
    · exact .inr ⟨k, rfl, hr⟩
  | sknp x =>
    simp only [exec, execSknp]
    obtain ⟨j, h⟩ | ⟨k, h, hr⟩ := key x <;> rw [h]
    · exact .inl ⟨_, rfl⟩
    · exact .inr ⟨k, rfl, hr⟩
  | ldVxK x =>
    simp only [exec, execLdVxK]
    cases lowestPressed s <;> exact .inl ⟨_, rfl⟩
  | _ => exact .inl ⟨_, rfl⟩

theorem fetch_cases (s : State) : (∃ w, s.fetch = .ok w) ∨ ∃ k, s.fetch = .error k ∧ k.Raisable s := by
  obtain h | ⟨k, h⟩ := accessible_or_first s s.pc 2
  · exact .inl ⟨_, fetch_ok h⟩
  · exact .inr ⟨_, fetch_fault h, h.raisable⟩

/-! ### The shared operations under another `TICK_RATE` -/

theorem loadBytes_setTickRate (s : State) (rate : Option Nat) (n : Nat) :
    ∀ a, (s.setTickRate rate).loadBytes a n = s.loadBytes a n := by
  induction n with
  | zero => intro; rfl
  | succ n ih =>
    intro a
    rw [State.loadBytes, State.loadBytes, show (s.setTickRate rate).memRead a = s.memRead a from rfl]
    simp only [ih]

theorem fetch_setTickRate (s : State) (rate : Option Nat) : (s.setTickRate rate).fetch = s.fetch := by
  rw [fetch_eq, fetch_eq, loadBytes_setTickRate]
  rfl

theorem storeBytes_setTickRate (rate : Option Nat) (bs : List Byte) : ∀ (s : State) (a : Word),
    (s.setTickRate rate).storeBytes a bs = (s.storeBytes a bs).map (·.setTickRate rate) := by
  induction bs with
  | nil => intros; rfl
  | cons b bs ih =>
    intro s a
    have hw : (s.setTickRate rate).memWrite a b = (s.memWrite a b).map (·.setTickRate rate) := by
      rw [State.memWrite, State.memWrite, show (s.setTickRate rate).outOfRange a = s.outOfRange a from rfl]
      split <;> rfl
    rw [State.storeBytes, State.storeBytes, hw]
    cases s.memWrite a b with
    | error => rfl
    | ok t => exact ih t (a + 1)

theorem setRegsFrom_setTickRate (rate : Option Nat) (bs : List Byte) : ∀ (s : State) (j : Nat),
    (s.setTickRate rate).setRegsFrom j bs = (s.setRegsFrom j bs).setTickRate rate := by
  induction bs with
  | nil => intros; rfl
  | cons b bs ih =>
    intro s j
    rw [State.setRegsFrom, State.setRegsFrom, ← ih]
    congr 1
    split <;> rfl

/-! ### The step -/

/-- Everything a step that answers a next state can have done: the fetch raised a fault; the instruction answered a next
state; it raised a fault; the word was unrecognised. -/
theorem step_cases (h : step s = .next t) : s.phase.admitsTick = true ∧
    ((∃ k, s.fetch = .error k ∧ k.Raisable s ∧ t = s.takeFault k) ∨
      ∃ w, s.fetch = .ok w ∧
        ((∃ i u, decode w = .ok i ∧ exec i (s.latch w) = .next u ∧ t = u.endTick) ∨
          (∃ i k, decode w = .ok i ∧ exec i (s.latch w) = .fault (.raised k) ∧ k.Raisable s ∧ t = s.takeFault k) ∨
          (∃ e, decode w = .error e ∧ t = ((s.latch w).setEvent (some { op := w, p := s.pc })).endTick))) := by
  rw [step, tick] at h
  split at h
  case isFalse => exact absurd h (by simp)
  refine ⟨‹_›, ?_⟩
  obtain ⟨w, hf⟩ | ⟨k, hf, hk⟩ := fetch_cases s <;> rw [hf] at h
  · refine .inr ⟨w, hf, ?_⟩
    simp only [runWord] at h
    split at h
    · rename_i i hd
      obtain ⟨u, hu⟩ | ⟨k, hu, hk⟩ := exec_cases i (s.latch w) <;> rw [hu] at h
      · exact .inl ⟨i, u, hd, hu, (Host.Outcome.next.inj h).symm⟩
      · refine .inr (.inl ⟨i, k, hd, hu, ?_, (Host.Outcome.next.inj h).symm⟩)
        cases k <;> exact hk
    · exact .inr (.inr ⟨_, ‹_›, (Host.Outcome.next.inj h).symm⟩)
  · exact .inl ⟨k, hf, hk, (Host.Outcome.next.inj h).symm⟩

end Sys2Proof.Machine
end

