-- ==== Sys2Proof/Laws/Video.lean ====
section
/-! SUPPORT. What a drawn sprite does to each pixel and when it collides (40_display.md R102, R103). -/

namespace Sys2Proof.Machine.Video

/-- A written pixel is read back, and no other pixel changes. -/
theorem pixel_setPixel (vid : Video) (y y' : Fin 32) (x x' : Fin 64) (b : Bool) :
    pixel (setPixel vid y x b) y' x' = if y' = y ∧ x' = x then b else pixel vid y' x' := by
  simp only [pixel, setPixel, Vector.getElem_set, Fin.ext_iff]
  by_cases hy : y'.val = y.val
  · by_cases hx : x'.val = x.val
    · simp [hy, hx]
    · simp [hy, hx, Ne.symm hx]
  · simp [hy, Ne.symm hy]

/-- Two screens with the same pixels are the same. -/
theorem ext_pixel {a b : Video} (h : ∀ y x, pixel a y x = pixel b y x) : a = b :=
  Vector.ext fun i hi => Vector.ext fun j hj => h ⟨i, hi⟩ ⟨j, hj⟩

theorem pixel_blank (y : Fin 32) (x : Fin 64) : pixel Video.blank y x = false := by
  simp [pixel, Video.blank]

theorem pixel_plot (d : Video × Bool) (y y' : Fin 32) (x x' : Fin 64) :
    pixel (plot d y x).1 y' x' = (pixel d.1 y' x' ^^ (y' == y && x' == x)) := by
  rw [plot, pixel_setPixel]
  by_cases h : y' = y ∧ x' = x
  · obtain ⟨rfl, rfl⟩ := h
    simp
  · rw [if_neg h]
    have : (y' == y && x' == x) = false := by simpa using h
    simp [this]

/-! ### One row -/

/-- Whether a listed column of a sprite byte sets screen column `x'`. -/
def columnsHit (x0 : Nat) (b : Byte) (x' : Fin 64) (cs : List Nat) : Bool :=
  cs.any fun c => b.getLsbD (7 - c) && x' == Fin.ofNat 64 (x0 + c)

/-- Whether a listed column of a sprite byte lands on an on pixel. -/
def columnsCollide (y : Fin 32) (x0 : Nat) (b : Byte) (vid : Video) (cs : List Nat) : Bool :=
  cs.any fun c => b.getLsbD (7 - c) && pixel vid y (Fin.ofNat 64 (x0 + c))

/-- Different columns of one byte are different columns of the screen. -/
theorem column_ne {x0 c c' : Nat} (hc : c < 64) (hc' : c' < 64) (h : c ≠ c') :
    Fin.ofNat 64 (x0 + c) ≠ Fin.ofNat 64 (x0 + c') := by
  simp only [Ne, Fin.ext_iff, Fin.val_ofNat]
  omega

theorem pixel_drawColumns (y y' : Fin 32) (x0 : Nat) (b : Byte) (x' : Fin 64) (cs : List Nat) :
    ∀ (d : Video × Bool), cs.Nodup → (∀ c ∈ cs, c < 64) →
      pixel (drawColumns y x0 b cs d).1 y' x' = (pixel d.1 y' x' ^^ (y' == y && columnsHit x0 b x' cs)) := by
  induction cs with
  | nil => intro d _ _; simp [drawColumns, columnsHit]
  | cons c cs ih =>
    intro d hn hlt
    obtain ⟨hc, hn⟩ := List.nodup_cons.1 hn
    rw [drawColumns, ih _ hn fun e he => hlt e (List.mem_cons_of_mem _ he)]
    have hcol : x' = Fin.ofNat 64 (x0 + c) → columnsHit x0 b x' cs = false := by
      intro e
      simp only [columnsHit, List.any_eq_false, Bool.and_eq_true, beq_iff_eq, not_and]
      intro e' he' _
      rw [e]
      exact column_ne (hlt c (by simp)) (hlt e' (by simp [he'])) fun h => hc (h ▸ he')
    have hcons : columnsHit x0 b x' (c :: cs) =
        (b.getLsbD (7 - c) && x' == Fin.ofNat 64 (x0 + c) || columnsHit x0 b x' cs) := by
      simp [columnsHit]
    rw [hcons]
    by_cases hb : b.getLsbD (7 - c) = true
    · rw [if_pos hb, pixel_plot, hb]
      by_cases hx : x' = Fin.ofNat 64 (x0 + c)
      · rw [hcol hx]
        simp [hx]
      · rw [beq_false_of_ne hx]
        simp
    · simp [hb]

theorem drawColumns_collision (y : Fin 32) (x0 : Nat) (b : Byte) (cs : List Nat) :
    ∀ (d : Video × Bool), cs.Nodup → (∀ c ∈ cs, c < 64) →
      (drawColumns y x0 b cs d).2 = (d.2 || columnsCollide y x0 b d.1 cs) := by
  induction cs with
  | nil => intro d _ _; simp [drawColumns, columnsCollide]
  | cons c cs ih =>
    intro d hn hlt
    obtain ⟨hc, hn⟩ := List.nodup_cons.1 hn
    rw [drawColumns, ih _ hn fun e he => hlt e (List.mem_cons_of_mem _ he)]
    have hcons : columnsCollide y x0 b d.1 (c :: cs) =
        (b.getLsbD (7 - c) && pixel d.1 y (Fin.ofNat 64 (x0 + c)) || columnsCollide y x0 b d.1 cs) := by
      simp [columnsCollide]
    rw [hcons]
    by_cases hb : b.getLsbD (7 - c) = true
    · have hsame : columnsCollide y x0 b (plot d y (Fin.ofNat 64 (x0 + c))).1 cs = columnsCollide y x0 b d.1 cs := by
        rw [columnsCollide, columnsCollide, Bool.eq_iff_iff, List.any_eq_true, List.any_eq_true]
        refine exists_congr fun e => and_congr_right fun he => ?_
        rw [pixel_plot]
        rw [beq_false_of_ne (column_ne (hlt e (by simp [he])) (hlt c (by simp)) fun h => hc (h ▸ he))]
        simp
      rw [if_pos hb, hsame, hb]
      simp [plot, Bool.or_assoc]
    · simp [hb]

/-! ### The rows -/

/-- Whether the sprite sets the pixel in column `x'` of row `y'`. -/
def rowsHit (x0 : Nat) (y' : Fin 32) (x' : Fin 64) : Nat → List Byte → Bool
  | _, [] => false
  | y, b :: bs => (y' == Fin.ofNat 32 y && columnsHit x0 b x' (List.range 8)) || rowsHit x0 y' x' (y + 1) bs

/-- Whether the sprite lands on an on pixel. -/
def rowsCollide (x0 : Nat) (vid : Video) : Nat → List Byte → Bool
  | _, [] => false
  | y, b :: bs => columnsCollide (Fin.ofNat 32 y) x0 b vid (List.range 8) || rowsCollide x0 vid (y + 1) bs

theorem range8_lt : ∀ c ∈ List.range 8, c < 64 := fun c hc => by
  have := List.mem_range.1 hc
  omega

theorem rowsHit_iff (x0 : Nat) (y' : Fin 32) (x' : Fin 64) (bs : List Byte) : ∀ y, rowsHit x0 y' x' y bs = true ↔
    ∃ r, ∃ h : r < bs.length, y' = Fin.ofNat 32 (y + r) ∧
      ∃ c < 8, bs[r].getLsbD (7 - c) = true ∧ x' = Fin.ofNat 64 (x0 + c) := by
  induction bs with
  | nil => intro y; simp [rowsHit]
  | cons b bs ih =>
    intro y
    rw [rowsHit, Bool.or_eq_true, ih]
    constructor
    · rintro (h | ⟨r, hr, h1, h2⟩)
      · simp only [Bool.and_eq_true, beq_iff_eq, columnsHit, List.any_eq_true, List.mem_range] at h
        exact ⟨0, by simp, h.1, h.2⟩
      · exact ⟨r + 1, by simpa using hr, by rw [h1]; congr 1; omega, h2⟩
    · rintro ⟨r, hr, h1, h2⟩
      cases r with
      | zero =>
        left
        simp only [Bool.and_eq_true, beq_iff_eq, columnsHit, List.any_eq_true, List.mem_range]
        exact ⟨h1, h2⟩
      | succ r => exact .inr ⟨r, by simpa using hr, by rw [h1]; congr 1; omega, h2⟩

/-- A row further down the sprite is another row of the screen. -/
theorem rowsHit_other_row {x0 y : Nat} {x' : Fin 64} {bs : List Byte} (h : bs.length < 32) :
    rowsHit x0 (Fin.ofNat 32 y) x' (y + 1) bs = false := by
  rw [Bool.eq_false_iff, Ne, rowsHit_iff]
  rintro ⟨r, hr, e, _⟩
  simp only [Fin.ext_iff, Fin.val_ofNat] at e
  omega

theorem pixel_drawRows (x0 : Nat) (y' : Fin 32) (x' : Fin 64) (bs : List Byte) : ∀ (y : Nat) (d : Video × Bool),
    bs.length ≤ 32 → pixel (drawRows x0 y bs d).1 y' x' = (pixel d.1 y' x' ^^ rowsHit x0 y' x' y bs) := by
  induction bs with
  | nil => intro y d _; simp [drawRows, rowsHit]
  | cons b bs ih =>
    intro y d h
    simp only [List.length_cons] at h
    rw [drawRows, ih _ _ (by omega), pixel_drawColumns _ _ _ _ _ _ _ List.nodup_range range8_lt, rowsHit]
    by_cases hy : y' = Fin.ofNat 32 y
    · rw [hy, rowsHit_other_row (by omega)]
      simp
    · rw [beq_false_of_ne hy]
      simp

theorem rowsCollide_iff (x0 : Nat) (vid : Video) (bs : List Byte) : ∀ y, rowsCollide x0 vid y bs = true ↔
    ∃ y' x', rowsHit x0 y' x' y bs = true ∧ pixel vid y' x' = true := by
  induction bs with
  | nil => intro y; simp [rowsCollide, rowsHit]
  | cons b bs ih =>
    intro y
    rw [rowsCollide, Bool.or_eq_true, ih]
    simp only [rowsHit, columnsCollide, columnsHit, Bool.or_eq_true, Bool.and_eq_true, beq_iff_eq, List.any_eq_true]
    constructor
    · rintro (⟨c, hc, h1, h2⟩ | ⟨y', x', h1, h2⟩)
      · exact ⟨_, _, .inl ⟨rfl, c, hc, h1, rfl⟩, h2⟩
      · exact ⟨y', x', .inr h1, h2⟩
    · rintro ⟨y', x', ⟨rfl, c, hc, h1, rfl⟩ | h1, h2⟩
      · exact .inl ⟨c, hc, h1, h2⟩
      · exact .inr ⟨y', x', h1, h2⟩

theorem drawRows_collision (x0 : Nat) (bs : List Byte) : ∀ (y : Nat) (d : Video × Bool), bs.length ≤ 32 →
    (drawRows x0 y bs d).2 = (d.2 || rowsCollide x0 d.1 y bs) := by
  induction bs with
  | nil => intro y d _; simp [drawRows, rowsCollide]
  | cons b bs ih =>
    intro y d h
    simp only [List.length_cons] at h
    rw [drawRows, ih _ _ (by omega), drawColumns_collision _ _ _ _ _ List.nodup_range range8_lt, rowsCollide,
      Bool.or_assoc]
    congr 2
    rw [Bool.eq_iff_iff, rowsCollide_iff, rowsCollide_iff]
    refine exists_congr fun y' => exists_congr fun x' => and_congr_right fun hit => ?_
    rw [pixel_drawColumns _ _ _ _ _ _ _ List.nodup_range range8_lt]
    have hy : y' ≠ Fin.ofNat 32 y := by
      rintro rfl
      rw [rowsHit_other_row (by omega)] at hit
      exact absurd hit (by simp)
    rw [beq_false_of_ne hy]
    simp

end Sys2Proof.Machine.Video

namespace Sys2Proof.Machine

/-- The pixels of a drawn sprite of at most 32 rows are the old ones, inverted where the sprite has a bit of 1. -/
theorem drawSprite_pixel (vid : Video) (x0 y0 : Nat) {bs : List Byte} (h : bs.length ≤ 32) (y : Fin 32) (x : Fin 64) :
    Video.pixel (drawSprite vid x0 y0 bs).1 y x = (Video.pixel vid y x ^^ Video.rowsHit x0 y x y0 bs) :=
  Video.pixel_drawRows x0 y x bs y0 (vid, false) h

/-- A sprite of at most 32 rows collides exactly when one of its bits of 1 lands on an on pixel. -/
theorem drawSprite_collision (vid : Video) (x0 y0 : Nat) {bs : List Byte} (h : bs.length ≤ 32) :
    (drawSprite vid x0 y0 bs).2 = true ↔
      ∃ y x, Video.rowsHit x0 y x y0 bs = true ∧ Video.pixel vid y x = true := by
  rw [drawSprite, Video.drawRows_collision x0 bs y0 (vid, false) h, Bool.false_or, Video.rowsCollide_iff]

/-- The bits of the sprite that a Dxyn reads are those of R102. -/
theorem rowsHit_iff_spriteBit (s : State) (x y : Reg) (n : Nat) (py : Fin 32) (px : Fin 64) :
    Video.rowsHit (spriteColumn (s.v x)) py px (spriteRow (s.v y))
      ((List.range n).map fun k => s.byteAt (State.cellOf (offsetAddr s.index k))) = true ↔
      SpriteBit s x y n py px := by
  rw [Video.rowsHit_iff]
  simp only [List.length_map, List.length_range, List.getElem_map, List.getElem_range, SpriteBit, Fin.ext_iff,
    Fin.val_ofNat, spriteColumn, spriteRow]
  constructor
  · rintro ⟨r, hr, h1, c, hc, h2, h3⟩
    exact ⟨r, hr, c, hc, h1, h3, h2⟩
  · rintro ⟨r, hr, c, hc, h1, h3, h2⟩
    exact ⟨r, hr, h1, c, hc, h2, h3⟩

end Sys2Proof.Machine
end

