-- ==== Sys2Proof/Tests/Slice0.lean ====
section
/-! SUPPORT. The model's own tests, with expected results from 95_test_vectors.md and the examples of the rules, and for
every statement with hypotheses a witness that meets them. -/

namespace Sys2Proof.Machine.Tests

/-! ### Helpers -/

/-- The next state of an answer, if it is one. -/
def nextOf : Answer → Option State
  | .next t => some t
  | .fault _ => none
  | .refused _ => none

/-- The state one tick after the word is placed at `PC`. -/
def after (w : Nat) (s : State) : Option State := nextOf (step (s.withFetchWord 16 w))

/-- A memory byte placed by hand. -/
def poke (s : State) (a : Nat) (b : Byte) : State := s.setMem (s.mem.write s.params.font a b)

/-- A pixel turned on by hand. -/
def light (s : State) (y : Fin 32) (x : Fin 64) : State := s.setVideo (Video.setPixel s.video y x true)

/-- A key pressed by hand. -/
def press (s : State) (k : Fin 16) : State := s.setKeys (s.keys.set k.val true)

/-- The three policies at `fault`. -/
def strict : Params := { defaultParams with oob := .fault, stack := .fault, key := .fault }

/-- Reset under the default policies. -/
def r0 : State := State.reset

/-- Reset under the `fault` policies. -/
def f0 : State := State.resetWith strict

/-- The pixels that are on among the first listed ones. -/
def lit (t : State) (ps : List (Fin 64 × Fin 32)) : List Bool := ps.map fun p => Video.pixel t.video p.2 p.1

/-! ### WellFormed (R72): the one check, refused and met at its boundary -/

theorem test_wellFormed_refuses_height_16 : (Instr.drw 0 0 16).wellFormed = false := by decide
theorem test_wellFormed_admits_height_15 : (Instr.drw 15 15 15).wellFormed = true := by decide

/-! ### Decoding: one word for every constructor, its nibbles written out from the formats of R71 -/

theorem test_decode_family_0 : decode 0b0000_0000_1110_0000 = .ok .cls ∧ decode 0b0000_0000_1110_1110 = .ok .ret ∧
    decode 0b0000_0000_0000_0000 = .ok .cls := by decide
theorem test_decode_families_1_2 : decode 0b0001_0010_0011_0100 = .ok (.jp 0x234) ∧
    decode 0b0010_1010_1011_1100 = .ok (.call 0xABC) := by decide
theorem test_decode_families_3_4 : decode 0b0011_0111_1000_0001 = .ok (.seImm 7 0x81) ∧
    decode 0b0100_0011_0001_0001 = .ok (.sneImm 3 0x11) := by decide
theorem test_decode_families_5_9 : decode 0b0101_0001_0010_0000 = .ok (.seReg 1 2) ∧
    decode 0b1001_1010_1011_0111 = .ok (.sneReg 10 11) := by decide
theorem test_decode_families_6_7 : decode 0b0110_1111_1010_1011 = .ok (.ldImm 15 0xAB) ∧
    decode 0b0111_0001_0000_0010 = .ok (.addImm 1 0x02) := by decide
theorem test_decode_family_8_logic : decode 0b1000_1110_1111_0000 = .ok (.ldReg 14 15) ∧
    decode 0b1000_0001_0010_0001 = .ok (.orReg 1 2) ∧ decode 0b1000_0001_0010_0010 = .ok (.andReg 1 2) ∧
    decode 0b1000_0001_0010_0011 = .ok (.xorReg 1 2) := by decide
theorem test_decode_family_8_arithmetic : decode 0b1000_0001_0010_0100 = .ok (.addReg 1 2) ∧
    decode 0b1000_0001_0010_0101 = .ok (.subReg 1 2) ∧ decode 0b1000_0001_0000_0110 = .ok (.shr 1 0) ∧
    decode 0b1000_0001_0010_0111 = .ok (.subnReg 1 2) ∧ decode 0b1000_0001_0000_1110 = .ok (.shl 1 0) := by decide
theorem test_decode_families_A_B_C_D : decode 0b1010_0011_0000_0000 = .ok (.ldI 0x300) ∧
    decode 0b1011_1111_1111_1111 = .ok (.jpV0 0xFFF) ∧ decode 0b1100_0011_0000_1111 = .ok (.rnd 3 0x0F) ∧
    decode 0b1101_0011_0100_0101 = .ok (.drw 3 4 5) := by decide
theorem test_decode_family_E : decode 0b1110_0101_1001_1110 = .ok (.skp 5) ∧
    decode 0b1110_0000_1010_0001 = .ok (.sknp 0) ∧ decode 0b1110_0101_0000_1110 = .ok (.skp 5) := by decide
theorem test_decode_family_F_timers : decode 0b1111_0010_0000_0111 = .ok (.ldVxDT 2) ∧
    decode 0b1111_1111_0000_1010 = .ok (.ldVxK 15) ∧ decode 0b1111_0001_0001_0101 = .ok (.ldDTVx 1) ∧
    decode 0b1111_0001_0001_1000 = .ok (.ldSTVx 1) := by decide
theorem test_decode_family_F_index : decode 0b1111_0010_0001_1110 = .ok (.addI 2) ∧
    decode 0b1111_0001_0010_1001 = .ok (.ldF 1) ∧ decode 0b1111_0000_0011_0011 = .ok (.ldB 0) ∧
    decode 0b1111_0010_0101_0101 = .ok (.stMem 2) ∧ decode 0b1111_1111_0110_0101 = .ok (.ldMem 15) := by decide
theorem test_decode_unrecognised : decode 0x8008 = .error (.unrecognized 0x8008) ∧
    decode 0xE09F = .error (.unrecognized 0xE09F) ∧ decode 0xF000 = .error (.unrecognized 0xF000) := by decide
theorem test_decodeTableWord : decodeTableWord 16 0xD345 = some (.drw 3 4 5) ∧ decodeTableWord 16 0xF10B = none := by decide

/-! ### The tick (95_test_vectors.md part 3) -/

theorem test_tick_1_unrecognised : (after 0x0123 r0).map (fun t => (t.pc, t.op, t.event)) =
    some (0x202, 0x0123, some ⟨0x0123, 0x200⟩) := by decide
theorem test_tick_2_unrecognised_timers : (after 0xF000 ((r0.setDt 3).setSt 1)).map (fun t => (t.pc, t.dt, t.st, t.event)) =
    some (0x202, 2, 0, some ⟨0xF000, 0x200⟩) := by decide
theorem test_tick_4_odd_pc : (after 0x1234 (r0.setPc 0x201)).map (·.pc) = some 0x234 := by decide
theorem test_tick_5_fetch_wraps : (nextOf (step ((poke (poke r0 0xFFF 0x6A) 0x000 0x05).setPc 0xFFF))).map
    (fun t => (t.v 10, t.pc)) = some (0x05, 0x1001) := by decide
theorem test_tick_6_fetch_faults : (nextOf (step ((poke f0 0xFFF 0x6A).setPc 0xFFF))).map
    (fun t => (t.phase, t.pc, t.op)) = some (.faulted (.memOutOfRange 0x1000) 0xFFF, 0xFFF, 0) := by decide
theorem test_tick_7_last_word : (after 0x1300 (f0.setPc 0xFFE)).map (·.pc) = some 0x300 := by decide

/-! ### Display (part 4) -/

theorem test_cls : (after 0x00E0 (light (light r0 0 0) 31 63)).map (fun t => (lit t [(0, 0), (63, 31)], t.pc)) =
    some ([false, false], 0x202) := by decide
theorem test_drw_1_wraps_at_corner :
    (after 0xD012 (((poke (poke r0 0x300 0xF0) 0x301 0x90).setIndex 0x300).setV 0 62 |>.setV 1 31)).map
      (fun t => (lit t [(62, 31), (63, 31), (0, 31), (1, 31), (2, 31), (62, 0), (63, 0), (1, 0)], t.v VF)) =
    some ([true, true, true, true, false, true, false, true], 0) := by decide
theorem test_drw_5_coordinate_before_flag : (after 0xDF11
      (((poke r0 0x300 0x80).setIndex 0x300).setV VF 0x0A |>.setV 1 2)).map
    (fun t => (lit t [(10, 2), (0, 2)], t.v VF)) = some ([true, false], 0) := by decide

/-! ### Control (part 5) -/

theorem test_ctl_1_jp : (after 0x1204 (r0.setPc 0x20A)).map (·.pc) = some 0x204 := by decide
theorem test_ctl_2_call : (after 0x2ABC r0).map (fun t => (t.sp, t.stackAt 1, t.pc)) = some (1, 0x202, 0xABC) := by decide
theorem test_ctl_3_call_from_15 : (after 0x2300 (r0.setSp 15)).map (fun t => (t.sp, t.stackAt 0, t.pc)) =
    some (0, 0x202, 0x300) := by decide
theorem test_ctl_4_ret : (after 0x00EE ((r0.setSp 1).setStackAt 1 0x206)).map (fun t => (t.pc, t.sp, t.stackAt 1)) =
    some (0x206, 0, 0x206) := by decide
theorem test_ctl_5_ret_wraps : (after 0x00EE r0).map (fun t => (t.pc, t.sp)) = some (0x0000, 15) := by decide
theorem test_ctl_9_se_imm : (after 0x3000 r0).map (·.pc) = some 0x204 ∧
    (after 0x3000 (r0.setV 0 1)).map (·.pc) = some 0x202 := by decide
theorem test_ctl_11_sne_imm : (after 0x4311 (r0.setV 3 0x10)).map (·.pc) = some 0x204 ∧
    (after 0x4310 (r0.setV 3 0x10)).map (·.pc) = some 0x202 := by decide
theorem test_ctl_13_se_reg : (after 0x5120 ((r0.setV 1 7).setV 2 7)).map (·.pc) = some 0x204 ∧
    (after 0x5127 ((r0.setV 1 7).setV 2 8)).map (·.pc) = some 0x202 := by decide
theorem test_ctl_16_sne_reg : (after 0x9120 ((r0.setV 1 7).setV 2 8)).map (·.pc) = some 0x204 ∧
    (after 0x9440 r0).map (·.pc) = some 0x202 := by decide
theorem test_ctl_19_jp_v0_not_reduced : (after 0xBFFF (r0.setV 0 0xFF)).map (·.pc) = some 0x10FE := by decide
theorem test_ctl_20_jp_v0_always_v0 : (after 0xB500 ((r0.setV 0 2).setV 5 0x40)).map (·.pc) = some 0x502 := by decide
theorem test_ctl_21_skip_past_end : (after 0x3000 (r0.setPc 0xFFE)).map (·.pc) = some 0x1002 := by decide

/-! ### Register and arithmetic (part 6) -/

theorem test_alu_2_ld_imm : (after 0x6FAB r0).map (fun t => (t.v VF, t.pc)) = some (0xAB, 0x202) := by decide
theorem test_alu_3_add_imm : (after 0x7102 (r0.setV 1 0xFF)).map (fun t => (t.v 1, t.v VF)) = some (1, 0) := by decide
theorem test_alu_5_ld_reg : (after 0x8EF0 (r0.setV VF 1)).map (·.v 14) = some 1 := by decide
theorem test_alu_7_or : (after 0x81F1 ((r0.setV 1 0x0F).setV VF 0x10)).map (fun t => (t.v 1, t.v VF)) =
    some (0x1F, 0x10) := by decide
theorem test_alu_8_and : (after 0x8122 ((r0.setV 1 0x3C).setV 2 0x0F)).map (·.v 1) = some 0x0C := by decide
theorem test_alu_9_xor : (after 0x8123 ((r0.setV 1 0xFF).setV 2 0x0F)).map (·.v 1) = some 0xF0 := by decide
theorem test_alu_14_add : (after 0x8124 ((r0.setV 1 0x7F).setV 2 0x80)).map (fun t => (t.v 1, t.v VF)) =
    some (0xFF, 0) := by decide
theorem test_alu_17_add_old_flag : (after 0x81F4 ((r0.setV 1 0xFF).setV VF 1)).map (fun t => (t.v 1, t.v VF)) =
    some (0, 1) := by decide
theorem test_alu_21_sub_equal : (after 0x8125 ((r0.setV 1 7).setV 2 7)).map (fun t => (t.v 1, t.v VF)) =
    some (0, 0) := by decide
theorem test_alu_22_sub_new_flag : (after 0x81F5 ((r0.setV 1 5).setV VF 3)).map (fun t => (t.v 1, t.v VF)) =
    some (4, 1) := by decide
theorem test_alu_25_shr : (after 0x8106 (r0.setV 1 5)).map (fun t => (t.v 1, t.v VF)) = some (2, 1) := by decide
theorem test_alu_26_shr_ignores_y : (after 0x8126 (r0.setV 2 0xFF)).map (fun t => (t.v 1, t.v VF)) = some (0, 0) := by
  decide
theorem test_alu_29_subn : (after 0x8127 ((r0.setV 1 5).setV 2 3)).map (fun t => (t.v 1, t.v VF)) =
    some (0xFE, 0) := by decide
theorem test_alu_31_subn_new_flag : (after 0x81F7 ((r0.setV 1 2).setV VF 5)).map (fun t => (t.v 1, t.v VF)) =
    some (0xFF, 1) := by decide
theorem test_alu_32_shl : (after 0x810E (r0.setV 1 0x81)).map (fun t => (t.v 1, t.v VF)) = some (2, 1) := by decide
theorem test_alu_34_shl_flag : (after 0x8F0E (r0.setV VF 0x80)).map (·.v VF) = some 2 := by decide
theorem test_alu_36_rnd : (rndWith 0xAB 3 0x0F r0).v 3 = 0x0B ∧ (rndWith 0x5A 3 0xFF r0).v 3 = 0x5A := by decide
theorem test_alu_37_rnd_completes : (after 0xC300 r0).map (·.pc) = some 0x202 := by decide

/-! ### Index and memory blocks (part 7) -/

theorem test_mem_1_ld_i : (after 0xA300 r0).map (·.index) = some 0x300 := by decide
theorem test_mem_3_add_i : (after 0xF21E ((r0.setIndex 0xFFF).setV 2 1)).map (fun t => (t.index, t.v VF)) =
    some (0x1000, 0) := by decide
theorem test_mem_4_add_i_wraps : (after 0xF21E ((r0.setIndex 0xFFFF).setV 2 1)).map (·.index) = some 0 := by decide
theorem test_mem_5_ld_f : (after 0xF029 (r0.setV 0 0x0A)).map (·.index) = some 0x082 := by decide
theorem test_mem_7_ld_f_whole_byte : (after 0xF029 (r0.setV 0 0xFF)).map (·.index) = some 0x54B := by decide
theorem test_mem_12_ld_b_wraps : (after 0xF033 ((r0.setV 0 123).setIndex 0xFFF)).map
    (fun t => (t.byteAt 0xFFF, t.byteAt 0, t.byteAt 1)) = some (1, 2, 3) := by decide
theorem test_mem_13_ld_b_faults : (after 0xF033 ((f0.setV 0 123).setIndex 0xFFF)).map
    (fun t => (t.phase, t.byteAt 0xFFF)) = some (.faulted (.memOutOfRange 0x1000) 0x200, 0) := by decide
theorem test_mem_15_st_mem : (after 0xF055 (((r0.setV 0 0x42).setV 1 0x99).setIndex 0x300)).map
    (fun t => (t.byteAt 0x300, t.byteAt 0x301, t.index)) = some (0x42, 0, 0x300) := by decide
theorem test_mem_14_st_mem : (after 0xF255 ((((r0.setV 0 1).setV 1 2).setV 2 3).setIndex 0x300)).map
    (fun t => (t.byteAt 0x300, t.byteAt 0x301, t.byteAt 0x302)) = some (1, 2, 3) := by decide
theorem test_mem_17_ld_mem : (after 0xF265 ((poke (poke (poke r0 0x300 2) 0x301 5) 0x302 4).setIndex 0x300)).map
    (fun t => (t.v 0, t.v 1, t.v 2, t.index)) = some (2, 5, 4, 0x300) := by decide
theorem test_mem_19_ld_mem_faults : (after 0xF265 (f0.setIndex 0xFFE)).map (fun t => (t.phase, t.v 0)) =
    some (.faulted (.memOutOfRange 0x1000) 0x200, 0) := by decide

/-! ### Keypad and timers (part 8) -/

theorem test_key_1_skp : (after 0xE09E (press (r0.setV 0 7) 7)).map (·.pc) = some 0x204 := by decide
theorem test_key_5_skp_low_nibble : (after 0xE09E (press (r0.setV 0 0x17) 7)).map (·.pc) = some 0x204 := by decide
theorem test_key_3_sknp : (after 0xE0A1 (r0.setV 0 7)).map (·.pc) = some 0x204 ∧
    (after 0xE0A1 (press (r0.setV 0 7) 7)).map (·.pc) = some 0x202 := by decide
theorem test_key_7_lowest : (after 0xF50A (press (press r0 3) 9)).map (fun t => (t.v 5, t.pc)) = some (3, 0x202) := by decide
theorem test_key_8_blocked : (after 0xF50A ((r0.setDt 5).setSt 1)).map (fun t => (t.pc, t.dt, t.st, t.v 5)) =
    some (0x200, 4, 0, 0) := by decide
theorem test_tmr_1_read : (after 0xF207 (r0.setDt 2)).map (fun t => (t.v 2, t.dt)) = some (2, 1) := by decide
theorem test_tmr_3_set_dt : (after 0xF115 (r0.setV 1 3)).map (·.dt) = some 2 := by decide
theorem test_tmr_5_set_dt_to_0 : (after 0xF115 (r0.setDt 9)).map (·.dt) = some 0 := by decide
theorem test_tmr_6_set_st : (after 0xF118 (r0.setV 1 1)).map (·.st) = some 0 ∧
    (after 0xF118 (r0.setV 1 0xFF)).map (·.st) = some 0xFE := by decide

/-! ### Boot (part 9 and W8) -/

theorem test_sys_2_rom_then_tick : (nextOf (hostMoves [.loadRom true [0x60, 0x05], .tick] r0)).map
    (fun t => (t.v 0, t.pc, t.phase)) = some (5, 0x202, .run) := by decide
theorem test_sys_3_boot_tick_is_cls : (nextOf (step r0)).map (fun t => (t.pc, t.phase, t.event)) =
    some (0x202, .run, none) := by decide

/-! ### R104's wording (log entry 12): two draws of a non-blank sprite over an on pixel leave VF = 0 -/

theorem test_second_draw_over_lit_pixel : (after 0xD011 ((light (poke r0 0x300 0x80) 0 0).setIndex 0x300)).map
    (fun t => (t.v VF, (after 0xD011 t).map fun u => (lit u [(0, 0)], u.v VF))) = some (1, some ([true], 0)) := by decide

/-! ### Witnesses: states and operands that meet the hypotheses of each statement -/

/-- Whether each word, match and mask of a list is as an "Encoding" line asks: a word with all free bits set. -/
def masked (es : List (Word × Word × Word)) : Bool := es.all fun e => e.1 &&& e.2.2 == e.2.1

theorem witness_DecodesAs_whole_families : masked [(0x0FF0, 0x0000, 0xF00F), (0x0FFE, 0x000E, 0xF00F),
    (0x1FFF, 0x1000, 0xF000), (0x2FFF, 0x2000, 0xF000), (0x3FFF, 0x3000, 0xF000), (0x4FFF, 0x4000, 0xF000),
    (0x5FFF, 0x5000, 0xF000), (0x6FFF, 0x6000, 0xF000), (0x7FFF, 0x7000, 0xF000), (0x9FFF, 0x9000, 0xF000),
    (0xAFFF, 0xA000, 0xF000), (0xBFFF, 0xB000, 0xF000), (0xCFFF, 0xC000, 0xF000), (0xDFFF, 0xD000, 0xF000)] := by decide
theorem witness_DecodesAs_sub_tables : masked [(0x8FF0, 0x8000, 0xF00F), (0x8FF1, 0x8001, 0xF00F),
    (0x8FF2, 0x8002, 0xF00F), (0x8FF3, 0x8003, 0xF00F), (0x8FF4, 0x8004, 0xF00F), (0x8FF5, 0x8005, 0xF00F),
    (0x8FF6, 0x8006, 0xF00F), (0x8FF7, 0x8007, 0xF00F), (0x8FFE, 0x800E, 0xF00F), (0xEFFE, 0xE00E, 0xF00F),
    (0xEFF1, 0xE001, 0xF00F)] := by decide
theorem witness_DecodesAs_family_F : masked [(0xFF07, 0xF007, 0xF0FF), (0xFF0A, 0xF00A, 0xF0FF),
    (0xFF15, 0xF015, 0xF0FF), (0xFF18, 0xF018, 0xF0FF), (0xFF1E, 0xF01E, 0xF0FF), (0xFF29, 0xF029, 0xF0FF),
    (0xFF33, 0xF033, 0xF0FF), (0xFF55, 0xF055, 0xF0FF), (0xFF65, 0xF065, 0xF0FF)] := by decide

theorem witness_EncodeThenDecode : (Instr.drw 15 15 15).wellFormed = true ∧ (Instr.jp 0xFFF).wellFormed = true := by decide
theorem witness_Aliases : decode 0x5127 = .ok (.seReg 1 2) ∧ decode 0x0000 = .ok .cls := by decide

theorem witness_Draw_accessible : Accessible (r0.setIndex 0xFFFF) (r0.setIndex 0xFFFF).index 15 ∧
    Accessible (f0.setIndex 0x0FF1) (f0.setIndex 0x0FF1).index 15 ∧
    Accessible (f0.setIndex 0x1000) (f0.setIndex 0x1000).index 0 := by decide
theorem witness_Draw_outOfRange : FirstOutOfRange (f0.setIndex 0x0FFF) (f0.setIndex 0x0FFF).index 15 1 ∧
    FirstOutOfRange (f0.setIndex 0x1000) (f0.setIndex 0x1000).index 1 0 ∧
    FirstOutOfRange (f0.setIndex 0x0FF2) (f0.setIndex 0x0FF2).index 15 14 := by decide
/-- A draw with a collision: the first font row at the lit pixel (0, 0). -/
theorem witness_Draw_collision : let s := (light r0 0 0).setIndex 0x050
    ∃ py px, SpriteBit s 0 1 5 py px ∧ Video.pixel s.video py px = true :=
  ⟨0, 0, ⟨0, by decide, 0, by decide, by decide, by decide, by decide⟩, by decide⟩
theorem witness_Draw_no_collision : let s := r0.setIndex 0x050
    ∀ py px, SpriteBit s 0 1 5 py px → Video.pixel s.video py px = false := fun _ _ _ => Video.pixel_blank _ _
theorem witness_Draw_blank : ∀ py px, ¬SpriteBit (light r0 0 0) 0 1 0 py px := fun _ _ ⟨_, hr, _⟩ => Nat.not_lt_zero _ hr
theorem witness_DrawingTwice : let s := r0.setIndex 0x050
    ∃ t, exec (.drw 0 1 15) s = .next t ∧ Accessible s s.index 15 ∧ t.params = s.params ∧ t.index = s.index ∧
      t.v 0 = s.v 0 ∧ t.v 1 = s.v 1 ∧ SameMemory s t :=
  ⟨_, rfl, by decide, rfl, rfl, by decide, by decide, fun _ => rfl⟩

theorem witness_Return : ¬(r0.params.stack = .fault ∧ r0.depth = 0) ∧
    ¬((f0.setDepth 1).params.stack = .fault ∧ (f0.setDepth 1).depth = 0) ∧
    (f0.params.stack = .fault ∧ f0.depth = 0) := by decide
theorem witness_Call : ¬((r0.setDepth 16).params.stack = .fault ∧ (r0.setDepth 16).depth = 16) ∧
    ¬((f0.setDepth 15).params.stack = .fault ∧ (f0.setDepth 15).depth = 16) ∧
    ((f0.setDepth 16).params.stack = .fault ∧ (f0.setDepth 16).depth = 16) := by decide
theorem witness_CallThenReturn : ∃ t u : State, exec (.call 0x300) (f0.setDepth 15) = .next t ∧ u.sp = t.sp ∧
    u.stack = t.stack ∧ u.depth = t.depth ∧ u.params = t.params := ⟨_, _, rfl, rfl, rfl, rfl, rfl⟩
theorem witness_SixteenNestedCalls : (List.replicate 16 (0x202 : Word)).length ≤ 16 ∧
    (f0.params.stack = .fault → f0.depth + (List.replicate 16 (0x202 : Word)).length ≤ 16) := by decide

theorem witness_FlagOperands : (14 : Reg) ≠ VF ∧ (0 : Reg) ≠ VF := by decide

theorem witness_DecimalDigits : r0.mem.wf r0.params.font = true ∧ Accessible (r0.setIndex 0xFFFF) 0xFFFF 3 ∧
    Accessible (f0.setIndex 0x0FFD) 0x0FFD 3 ∧ FirstOutOfRange (f0.setIndex 0x0FFE) 0x0FFE 3 2 ∧
    FirstOutOfRange (f0.setIndex 0x1000) 0x1000 3 0 := by decide
theorem witness_RegisterBlocks : f0.mem.wf f0.params.font = true ∧ Accessible (r0.setIndex 0xFFFF) 0xFFFF (15 + 1) ∧
    Accessible (f0.setIndex 0x0FF0) 0x0FF0 (15 + 1) ∧ FirstOutOfRange (f0.setIndex 0x0FF1) 0x0FF1 (15 + 1) 15 ∧
    FirstOutOfRange (f0.setIndex 0x1000) 0x1000 (0 + 1) 0 := by decide

theorem witness_KeySkips : ¬((f0.setV 0 15).params.key = .fault ∧ 15 < ((f0.setV 0 15).v 0).toNat) ∧
    ((15 : Fin 16).val = ((f0.setV 0 15).v 0).toNat % 16) ∧
    ¬((r0.setV 0 0xFF).params.key = .fault ∧ 15 < ((r0.setV 0 0xFF).v 0).toNat) ∧
    ((f0.setV 0 16).params.key = .fault ∧ 15 < ((f0.setV 0 16).v 0).toNat) := by decide
theorem witness_KeyWait : (press r0 15).key 15 = true ∧ (∀ j, j < 15 → (press r0 15).key j = false) ∧
    (press (press r0 0) 15).key 0 = true ∧ (∀ k, r0.key k = false) := by decide

theorem witness_StepRuns : (f0.setPc 0x0FFE).phase.admitsTick = true ∧ Accessible (f0.setPc 0x0FFE) 0x0FFE 2 ∧
    decode (wordOfBytes ((f0.setPc 0x0FFE).byteAt 0xFFE) ((f0.setPc 0x0FFE).byteAt 0xFFF)) = .ok .cls := by decide
/-- Both clauses: an instruction that answers a next state, and one that raises a fault. -/
theorem witness_StepRuns_clauses : (∃ t, exec .cls (r0.latch 0x00E0) = .next t) ∧
    exec .ret (f0.latch 0x00EE) = .fault (.raised .stackUnderflow) := ⟨⟨_, rfl⟩, rfl⟩
theorem witness_Unrecognized : let s := r0.withFetchWord 16 0x0123
    s.phase.admitsTick = true ∧ s.fetch = .ok 0x0123 ∧ decode 0x0123 = .error (.unrecognized 0x0123) := by decide
theorem witness_Fetch : ¬((f0.setPc 0x0FFE).params.oob = .fault ∧ 0x0FFF ≤ (f0.setPc 0x0FFE).pc.toNat) ∧
    ((f0.setPc 0x0FFF).params.oob = .fault ∧ 0x0FFF ≤ (f0.setPc 0x0FFF).pc.toNat) ∧
    (f0.setPc 0x0FFF).fetch = .error (.memOutOfRange 0x1000) ∧
    (f0.setPc 0x1000).fetch = .error (.memOutOfRange 0x1000) ∧
    (f0.setPc 0xFFFF).fetch = .error (.memOutOfRange 0xFFFF) := by decide
/-- A completed tick, for the statements about one; Fx0A names neither timer. -/
theorem witness_CompletedTick : let s := (r0.setDt 5).withFetchWord 16 0xF00A
    s.fetch = .ok 0xF00A ∧ (∃ t, step s = .next t ∧ t.phase = .run) ∧
      (∀ x, decode 0xF00A ≠ .ok (.ldDTVx x)) ∧ ∀ x, decode 0xF00A ≠ .ok (.ldSTVx x) :=
  ⟨by decide, ⟨_, rfl, rfl⟩, by decide, by decide⟩
theorem witness_TimerWrites : decode 0xF115 = .ok (.ldDTVx 1) ∧ decode 0xF118 = .ok (.ldSTVx 1) ∧
    (after 0xF118 (r0.setV 1 1)).map (·.phase) = some .run := by decide
theorem witness_FaultingTick :
    (nextOf (step (f0.withFetchWord 16 0x00EE))).map (·.phase) = some (.faulted .stackUnderflow 0x200) ∧
    (nextOf (step ((f0.setDepth 16).withFetchWord 16 0x2300))).map (·.phase) = some (.faulted .stackOverflow 0x200) ∧
    (nextOf (step ((f0.setV 0 16).withFetchWord 16 0xE09E))).map (·.phase) =
      some (.faulted (.keyOutOfRange 16) 0x200) ∧
    (nextOf (step (f0.setPc 0x1000))).map (·.phase) = some (.faulted (.memOutOfRange 0x1000) 0x1000) := by decide
theorem witness_DefaultPolicies : r0.params.oob = .wrap ∧ r0.params.stack = .wrap ∧ r0.params.key = .lowNibble ∧
    r0.phase.admitsTick = true := by decide
theorem witness_Phases : r0.phase = .boot ∧ (r0.setPhase .loadFailed).phase = .loadFailed ∧
    step (r0.setPhase .loadFailed) = .fault (.noTick .loadFailed) := ⟨rfl, rfl, rfl⟩
theorem witness_Blocked : let s := (r0.setDt 5).withFetchWord 16 0xFF0A
    s.phase.admitsTick = true ∧ (∀ k, s.key k = false) ∧ s.fetch = .ok 0xFF0A ∧ decode 0xFF0A = .ok (.ldVxK 15) := by
  decide
theorem witness_Exec_next : ∃ t, exec (.stMem 15) (r0.setIndex 0xFFF) = .next t := ⟨_, rfl⟩
theorem witness_Invariant : r0.Inv ∧ f0.Inv ∧ ∃ t, step f0 = .next t :=
  ⟨⟨rfl, by decide, by decide, by decide, nofun⟩, ⟨rfl, by decide, by decide, by decide, nofun⟩, ⟨_, rfl⟩⟩
/-- A state in phase `LoadFailed` is reachable. -/
theorem witness_Reachable : ∃ s, Reachable strict s ∧ s.phase = .loadFailed :=
  ⟨f0.setPhase .loadFailed, .move (.loadRom false []) .reset rfl, rfl⟩
theorem witness_MemoryPrimitives : r0.mem.wf r0.params.font = true ∧
    ¬(f0.params.oob = .fault ∧ 0x1000 ≤ (0x0FFF : Word).toNat) ∧
    (f0.params.oob = .fault ∧ 0x1000 ≤ (0x1000 : Word).toNat) := by decide
theorem witness_CanonicalMemory : Memory.wf defaultFont [(0x050, 0x00), (0xFFF, 0x01)] = true := by decide
theorem witness_StoredWord : (r0.setPc 0x0FFF).mem.wf (r0.setPc 0x0FFF).params.font = true ∧
    Accessible (r0.setPc 0x0FFF) 0x0FFF 2 ∧ Accessible (f0.setPc 0x0FFE) 0x0FFE 2 ∧ 0xFFFF < 65536 := by decide
theorem witness_LoadRom : r0.phase = .boot ∧ (List.replicate 3584 (0xAA : Byte)).length ≤ 3584 ∧
    3584 < (List.replicate 3585 (0xAA : Byte)).length ∧ (r0.setPhase .ready).phase ≠ .boot :=
  ⟨rfl, List.length_replicate.le, lt_of_lt_of_eq (by decide) List.length_replicate.symm, nofun⟩

end Sys2Proof.Machine.Tests
end

section
/-! The operand fields of a word as the source computes them: a mask, then a shift (R16). -/

namespace Sys2Proof

/-- Masking with the low `k` ones keeps a word's value mod `2 ^ k`. -/
theorem toNat_and_lowMask (op : Word) {mask : Word} (k : Nat) (hmask : mask.toNat = 2 ^ k - 1) :
    (op &&& mask).toNat = op.toNat % 2 ^ k := by
  rw [BitVec.toNat_and, hmask, Nat.and_two_pow_sub_one_eq_mod]

/-- A mask whose ones are the `k` bits from bit `s` up, shifted down by `s`, reads those bits (R16). -/
theorem toNat_and_mask_ushiftRight (op : Word) {mask : Word} (s k : Nat) (hmask : (mask >>> s).toNat = 2 ^ k - 1) :
    ((op &&& mask) >>> s).toNat = op.toNat / 2 ^ s % 2 ^ k := by
  rw [BitVec.ushiftRight_and_distrib, toNat_and_lowMask _ k hmask, BitVec.toNat_ushiftRight,
    Nat.shiftRight_eq_div_pow]

/-- Settles O4: a field and its masked, shifted word are the same bits of `op`, read by division and remainder. -/
theorem operandFieldsAreMasksAndShifts : Obligations.OperandFieldsAreMasksAndShifts := by
  intro op
  refine ⟨?x, ?y, ?n, ?kk, ?nnn⟩
  case x => exact (fieldX_val op).trans (toNat_and_mask_ushiftRight op 8 4 (by decide)).symm
  case y => exact (fieldY_val op).trans (toNat_and_mask_ushiftRight op 4 4 (by decide)).symm
  case n => exact (fieldN_eq op).trans (toNat_and_lowMask op 4 (by decide)).symm
  case kk => exact (fieldKK_toNat op).trans (toNat_and_lowMask op 8 (by decide)).symm
  case nnn => exact (fieldNNN_toNat op).trans (toNat_and_lowMask op 12 (by decide)).symm

end Sys2Proof
end

section
/-! The state after reset (R42), component by component; the scalar components hold by the definition. -/

namespace Sys2Proof.Machine

/-- Within `FONT`'s 80 addresses, reset memory holds its bytes (R36). -/
theorem resetByte_font (font : Font) {k : Nat} (hk : k < 80) : resetByte font (0x050 + k) = font[k] := by
  have hin : Config.fontBase ≤ 0x050 + k ∧ 0x050 + k < Config.fontBase + Config.fontSize := by
    simp only [Config.fontBase, Config.fontSize]; omega
  rw [resetByte, dif_pos hin]
  simp only [Config.fontBase, Nat.add_sub_cancel_left]

/-- Outside `FONT`'s addresses, reset memory is 0 (R36). -/
theorem resetByte_outside_font (font : Font) {a : Nat} (ha : ¬(0x050 ≤ a ∧ a ≤ 0x09F)) : resetByte font a = 0 := by
  refine dif_neg fun hin => ha ?_
  simp only [Config.fontBase, Config.fontSize] at hin
  omega

namespace State

variable (params : Params)

@[simp] theorem resetWith_byteAt (a : Nat) : (resetWith params).byteAt a = resetByte params.font a := rfl

@[simp] theorem resetWith_v (r : Reg) : (resetWith params).v r = 0 := Vector.getElem_replicate r.isLt

@[simp] theorem resetWith_stackAt (j : BitVec 4) : (resetWith params).stackAt j = 0 := Vector.getElem_replicate j.isLt

@[simp] theorem resetWith_key (k : Fin 16) : (resetWith params).key k = false := Vector.getElem_replicate k.isLt

end State

/-- Settles O49: the arrays and memory by the lemmas above, the screen by `Video.pixel_blank`. -/
theorem resetStateIsAsListed : Obligations.ResetStateIsAsListed := by
  intro params s
  refine ⟨?regs, rfl, rfl, rfl, ?stack, rfl, rfl, ?font, ?zero, ?video, ?keys, rfl, rfl, rfl, rfl⟩
  case regs => exact State.resetWith_v params
  case stack => exact State.resetWith_stackAt params
  case font => exact fun k hk => (State.resetWith_byteAt params _).trans (resetByte_font params.font hk)
  case zero => exact fun a _ ha => (State.resetWith_byteAt params a).trans (resetByte_outside_font params.font ha)
  case video => exact Video.pixel_blank
  case keys => exact State.resetWith_key params

end Sys2Proof.Machine
end

section
/-! The fetch against R53 and R74: when its two bytes are in range, which is the first that is not, and the word they
make. -/

namespace Sys2Proof.Machine

/-- The byte at the lower address is the high half of the word (R53). -/
theorem wordOfBytes_toNat (hi lo : Byte) : (wordOfBytes hi lo).toNat = 256 * hi.toNat + lo.toNat :=
  (toNat_append_add hi lo).trans (by omega)

/-- The address of the second byte of an access, mod 2^16 (R51). -/
theorem toNat_add_one (a : Word) : (a + 1).toNat = (a.toNat + 1) % 65536 := BitVec.toNat_add a 1

/-- Two bytes from `a` raise no fault unless `OOB_POLICY = fault` and one of them lies past 0x0FFF. -/
theorem accessible_two_of_not_fault {s : State} {a : Word} (h : ¬(s.params.oob = .fault ∧ 0x0FFF ≤ a.toNat)) :
    Accessible s a 2 := by
  intro hfault k hk
  have ha : a.toNat < 0x0FFF := Nat.lt_of_not_le fun hle => h ⟨hfault, hle⟩
  simp only [offsetAddr, Config.memSize, BitVec.toNat_add, BitVec.toNat_ofNat]
  omega

/-- Of two bytes from `a`, the first is the one out of range when `a` itself is. -/
theorem firstOutOfRange_two_zero {s : State} {a : Word} (hfault : s.params.oob = .fault) (ha : 0x1000 ≤ a.toNat) :
    FirstOutOfRange s a 2 0 :=
  ⟨hfault, by decide, by rwa [offsetAddr_zero], fun _ hj => absurd hj (Nat.not_lt_zero _)⟩

/-- Of two bytes from 0x0FFF, the second is the first out of range. -/
theorem firstOutOfRange_two_one {s : State} {a : Word} (hfault : s.params.oob = .fault) (ha : a.toNat = 0x0FFF) :
    FirstOutOfRange s a 2 1 := by
  refine ⟨hfault, by decide, ?second, fun j hj => ?first⟩
  case second =>
    rw [show offsetAddr a 1 = a + 1 from rfl, toNat_add_one, ha]
    decide
  case first =>
    obtain rfl : j = 0 := Nat.lt_one_iff.mp hj
    rw [offsetAddr_zero, ha]
    decide

/-- Settles O34: a fetch in range by `fetch_ok`, the others by `fetch_fault` at the byte that is the first out of
range. -/
theorem fetchIsBigEndian : Obligations.FetchIsBigEndian := by
  intro s
  refine ⟨fun h => ⟨_, fetch_ok (accessible_two_of_not_fault h), ?word⟩, fun hfault hpc => ?fault⟩
  case word => rw [wordOfBytes_toNat, State.cellOf, State.cellOf, toNat_add_one, Config.memSize]
  case fault =>
    split
    next hle => rw [fetch_fault (firstOutOfRange_two_zero hfault hle), offsetAddr_zero]
    next hlt => exact fetch_fault (firstOutOfRange_two_one hfault (by omega))

end Sys2Proof.Machine
end

section
/-! The display family (R100-R102): what a Dxyn draws, pixel by pixel in terms of `SpriteBit`, and what 00E0 and Dxyn
answer. -/

namespace Sys2Proof

/-- A word of family 0x0 decodes by its low nibble (R77). -/
theorem decode_of_family_zero {op : Word} (h : family op = 0x0) : decode op = decode0 op := by rw [decode, h]; rfl

namespace Machine

theorem flagByte_of_true {c : Bool} (h : c = true) : flagByte c = 1 := if_pos h

theorem flagByte_of_not_true {c : Bool} (h : ¬c = true) : flagByte c = 0 := if_neg h

/-! ### The sprite in memory -/

/-- The `n` bytes of memory from `I` on that a Dxyn reads (R101). -/
def spriteBytes (s : State) (n : Nat) : List Byte :=
  (List.range n).map fun k => s.byteAt (State.cellOf (offsetAddr s.index k))

theorem loadBytes_eq_spriteBytes {s : State} {n : Nat} (h : Accessible s s.index n) :
    s.loadBytes s.index n = .ok (spriteBytes s n) := loadBytes_ok h

/-- Every sprite of a well-formed Dxyn fits on the screen's 32 rows. -/
theorem length_spriteBytes_le (s : State) {n : Nat} (hn : n < 16) : (spriteBytes s n).length ≤ 32 := by
  rw [spriteBytes, List.length_map, List.length_range]
  omega

theorem rowsHit_spriteBytes_iff (s : State) (x y : Reg) (n : Nat) (py : Fin 32) (px : Fin 64) :
    Video.rowsHit (spriteColumn (s.v x)) py px (spriteRow (s.v y)) (spriteBytes s n) = true ↔
      SpriteBit s x y n py px := rowsHit_iff_spriteBit s x y n py px

/-! ### The drawn screen -/

/-- The screen and the collision that a Dxyn computes (R101). -/
def drawnSprite (s : State) (x y : Reg) (n : Nat) : Video × Bool :=
  drawSprite s.video (spriteColumn (s.v x)) (spriteRow (s.v y)) (spriteBytes s n)

/-- The sprite inverts the pixels under its bits of 1 (R102). -/
theorem drawnSprite_pixel_iff (s : State) (x y : Reg) {n : Nat} (hn : n < 16) (py : Fin 32) (px : Fin 64) :
    Video.pixel (drawnSprite s x y n).1 py px = true ↔
      ¬(Video.pixel s.video py px = true ↔ SpriteBit s x y n py px) := by
  rw [drawnSprite, drawSprite_pixel _ _ _ (length_spriteBytes_le s hn), bne_iff_ne, Ne, Bool.eq_iff_iff,
    rowsHit_spriteBytes_iff]

/-- It collides exactly when one of its bits of 1 lies on an on pixel (R101). -/
theorem drawnSprite_collision_iff (s : State) (x y : Reg) {n : Nat} (hn : n < 16) :
    (drawnSprite s x y n).2 = true ↔ ∃ py px, SpriteBit s x y n py px ∧ Video.pixel s.video py px = true := by
  simp only [drawnSprite, drawSprite_collision _ _ _ (length_spriteBytes_le s hn), rowsHit_spriteBytes_iff]

/-! ### What Dxyn answers -/

/-- A Dxyn whose sprite bytes are accessible answers the drawn screen, with the collision in VF (R101). -/
theorem exec_drw_of_accessible {s : State} {n : Nat} (h : Accessible s s.index n) (x y : Reg) :
    exec (.drw x y n) s =
      .next ((s.setVideo (drawnSprite s x y n).1).setV VF (flagByte (drawnSprite s x y n).2)) := by
  simp only [exec, execDrw, loadBytes_eq_spriteBytes h, drawnSprite]

/-- A Dxyn raises the fault of its first sprite byte out of range (R52, R101). -/
theorem exec_drw_of_firstOutOfRange {s : State} {n k : Nat} (h : FirstOutOfRange s s.index n k) (x y : Reg) :
    exec (.drw x y n) s = .fault (.raised (.memOutOfRange (offsetAddr s.index k))) := by
  simp only [exec, execDrw, loadBytes_fault h, raise]

/-! ### The obligations -/

/-- Settles O7: the answer is `drawnSprite`'s, whose pixels and collision are those of `SpriteBit`. -/
theorem drawInvertsSpritePixelsAndReportsCollision : Obligations.DrawInvertsSpritePixelsAndReportsCollision := by
  refine ⟨decodesAs_family fun op hfam => ?word, fun x y n s hn =>
    ⟨fun ha => ⟨_, exec_drw_of_accessible ha x y, drawnSprite_pixel_iff s x y hn, fun hit => ?collision,
      fun off => ?noCollision, rfl, fun j hj => ?regs, fun _ => rfl⟩, fun k hk => exec_drw_of_firstOutOfRange hk x y⟩⟩
  case word => rw [decode, hfam]; rfl
  case collision =>
    rw [State.setV_v, if_pos rfl, flagByte_of_true ((drawnSprite_collision_iff s x y hn).2 hit)]
  case noCollision =>
    have miss : ¬(drawnSprite s x y n).2 = true := by
      rw [drawnSprite_collision_iff s x y hn]
      rintro ⟨py, px, hbit, hon⟩
      exact Bool.false_ne_true ((off py px hbit).symm.trans hon)
    rw [State.setV_v, if_pos rfl, flagByte_of_not_true miss]
  case regs => rw [State.setV_v, if_neg hj, State.setVideo_v]

/-- Settles O6: the new screen is the blank one, whose pixels `Video.pixel_blank` gives. -/
theorem clearScreenTurnsAllPixelsOff : Obligations.ClearScreenTurnsAllPixelsOff := by
  refine ⟨decodesAs_lowNibble fun op hfam hlow => ?word, fun s =>
    ⟨s.setVideo Video.blank, rfl, Video.pixel_blank, rfl, fun _ => rfl⟩⟩
  case word => rw [decode_of_family_zero hfam, decode0, hlow]; rfl

end Machine

end Sys2Proof
end

section
/-! The control family (R120-R122, R125-R129): what a jump, a skip, a call and a return answer. -/

namespace Sys2Proof.Machine

theorem zext16_toNat {w : Nat} (hw : w ≤ 16) (v : BitVec w) : (zext16 v).toNat = v.toNat :=
  BitVec.toNat_setWidth_of_le hw

/-! ### What changes only `PC` -/

theorem onlyPc_refl (s : State) : OnlyPc s s := ⟨rfl, fun _ => rfl⟩

theorem onlyPc_setPc (s : State) (a : Word) : OnlyPc s (s.setPc a) := ⟨rfl, fun _ => rfl⟩

theorem onlyPc_skipIf (s : State) (c : Bool) : OnlyPc s (s.skipIf c) := by
  cases c with
  | false => exact onlyPc_refl s
  | true => exact onlyPc_setPc s (s.pc + 2)

/-! ### Jumps -/

/-- The target of Bnnn is the sum mod 2^16, which no 12-bit mask reduces (R129). -/
theorem jumpTarget_toNat (nnn : Addr12) (v0 : Byte) :
    (jumpTarget nnn v0).toNat = (nnn.toNat + v0.toNat) % 65536 := by
  rw [jumpTarget, BitVec.toNat_add, zext16_toNat (by decide), zext16_toNat (by decide)]

/-- Settles O13: the answer is `setPc` of the field, whose value `zext16` keeps. -/
theorem jumpSetsPc : Obligations.JumpSetsPc := by
  refine ⟨decodesAs_family fun op hfam => ?word, fun nnn s =>
    ⟨s.setPc (zext16 nnn), rfl, zext16_toNat (by decide) nnn, onlyPc_setPc s _⟩⟩
  case word => rw [decode, hfam]; rfl

/-- Settles O14: the answer is `setPc` of `jumpTarget`. -/
theorem jumpPlusV0SetsPc : Obligations.JumpPlusV0SetsPc := by
  refine ⟨decodesAs_family fun op hfam => ?word, fun nnn s =>
    ⟨s.setPc (jumpTarget nnn (s.v 0)), rfl, jumpTarget_toNat nnn (s.v 0), onlyPc_setPc s _⟩⟩
  case word => rw [decode, hfam]; rfl

/-! ### Skips -/

/-- A skip adds 2 to `PC` mod 2^16 when its condition holds (R124). -/
theorem skipIf_pc_toNat (s : State) (c : Bool) :
    (s.skipIf c).pc.toNat = if c then (s.pc.toNat + 2) % 65536 else s.pc.toNat := by
  cases c with
  | false => rfl
  | true => exact BitVec.toNat_add s.pc 2

theorem skipIf_beq_pc_toNat (s : State) (a b : Byte) :
    (s.skipIf (a == b)).pc.toNat = if a.toNat = b.toNat then (s.pc.toNat + 2) % 65536 else s.pc.toNat := by
  simp only [skipIf_pc_toNat, beq_iff_eq, BitVec.toNat_inj]

theorem skipIf_bne_pc_toNat (s : State) (a b : Byte) :
    (s.skipIf (a != b)).pc.toNat = if a.toNat = b.toNat then s.pc.toNat else (s.pc.toNat + 2) % 65536 := by
  simp only [skipIf_pc_toNat, bne_iff_ne, ne_eq, ite_not, BitVec.toNat_inj]

/-- Settles O15: both are `skipIf`, on `V[x] == kk` and on `V[x] != kk`. -/
theorem immediateSkips : Obligations.ImmediateSkips := by
  refine ⟨decodesAs_family fun op hfam => ?se, decodesAs_family fun op hfam => ?sne, fun x kk s =>
    ⟨⟨_, rfl, onlyPc_skipIf s _, skipIf_beq_pc_toNat s _ _⟩, ⟨_, rfl, onlyPc_skipIf s _, skipIf_bne_pc_toNat s _ _⟩⟩⟩
  case se => rw [decode, hfam]; rfl
  case sne => rw [decode, hfam]; rfl

/-- Settles O16: both are `skipIf`, on `V[x] == V[y]` and on `V[x] != V[y]`; the decoder reads no low nibble in these
families. -/
theorem registerSkips : Obligations.RegisterSkips := by
  refine ⟨decodesAs_family fun op hfam => ?se, decodesAs_family fun op hfam => ?sne, fun x y s =>
    ⟨⟨_, rfl, onlyPc_skipIf s _, skipIf_beq_pc_toNat s _ _⟩, ⟨_, rfl, onlyPc_skipIf s _, skipIf_bne_pc_toNat s _ _⟩⟩⟩
  case se => rw [decode, hfam]; rfl
  case sne => rw [decode, hfam]; rfl

/-! ### Calls and returns -/

/-- Counting the calls outstanding writes `DEPTH` and nothing else, with its old value under `STACK_POLICY = wrap`. -/
theorem State.countDepth_eq_setDepth (s : State) (d : Nat) :
    s.countDepth d = s.setDepth (if s.params.stack = .fault then d else s.depth) := by
  rw [State.countDepth]
  split <;> rfl

/-- A return that does not underflow pops the stack into `PC` and counts one call less (R120). -/
theorem exec_ret_of_not_underflow {s : State} (h : ¬(s.params.stack = .fault ∧ s.depth = 0)) :
    exec .ret s = .next (s.pop.setDepth (if s.params.stack = .fault then s.depth - 1 else s.depth)) := by
  rw [exec, execRet, if_neg h, State.countDepth_eq_setDepth]
  rfl

theorem exec_ret_of_underflow {s : State} (h : s.params.stack = .fault ∧ s.depth = 0) :
    exec .ret s = .fault (.raised .stackUnderflow) := if_pos h

/-- A call that does not overflow pushes `PC`, jumps and counts one call more (R122). -/
theorem exec_call_of_not_overflow {s : State} (h : ¬(s.params.stack = .fault ∧ s.depth = 16)) (nnn : Addr12) :
    exec (.call nnn) s = .next ((s.push.setPc (zext16 nnn)).setDepth
      (if s.params.stack = .fault then s.depth + 1 else s.depth)) := by
  rw [exec, execCall, Config.stackDepth, if_neg h, State.countDepth_eq_setDepth]
  rfl

theorem exec_call_of_overflow {s : State} (h : s.params.stack = .fault ∧ s.depth = 16) (nnn : Addr12) :
    exec (.call nnn) s = .fault (.raised .stackOverflow) := if_pos h

/-- Decrementing a 4-bit pointer is adding 15 mod 16 (R29). -/
theorem sp_sub_one_toNat (j : BitVec 4) : (j - 1).toNat = (j.toNat + 15) % 16 := by
  rw [BitVec.toNat_sub, Nat.add_comm]
  rfl

theorem push_stackAt (s : State) (j : BitVec 4) :
    s.push.stackAt j = if j = s.sp + 1 then s.pc else s.stackAt j := by
  rw [State.push_eq, State.setStackAt_stackAt, State.setSp_stackAt]

/-- Settles O9: off an underflow the answer is `pop` with a new `DEPTH`. -/
theorem returnPopsTheStack : Obligations.ReturnPopsTheStack := by
  refine ⟨decodesAs_lowNibble fun op hfam hlow => ?word, fun s =>
    ⟨fun h => ⟨_, exec_ret_of_not_underflow h, rfl, sp_sub_one_toNat s.sp, fun hfault => if_pos hfault, rfl,
      fun _ => rfl⟩, fun hfault hdepth => exec_ret_of_underflow ⟨hfault, hdepth⟩⟩⟩
  case word => rw [decode_of_family_zero hfam, decode0, hlow]; rfl

/-- Settles O10: off an overflow the answer is `push` with a new `PC` and `DEPTH`, and its stack that of
`push_stackAt`. -/
theorem callPushesTheAdvancedPc : Obligations.CallPushesTheAdvancedPc := by
  refine ⟨decodesAs_family fun op hfam => ?word, fun nnn s =>
    ⟨fun h => ⟨_, exec_call_of_not_overflow h nnn, BitVec.toNat_add s.sp 1, ?pushed, fun j hj => ?kept,
      zext16_toNat (by decide) nnn, fun hfault => if_pos hfault, rfl, fun _ => rfl⟩,
      fun hfault hdepth => exec_call_of_overflow ⟨hfault, hdepth⟩ nnn⟩⟩
  case word => rw [decode, hfam]; rfl
  case pushed => exact (push_stackAt s _).trans (if_pos rfl)
  case kept => exact (push_stackAt s j).trans (if_neg hj)

end Sys2Proof.Machine
end

section
/-! The register and arithmetic family (R150-R160): what a write of `V[x]`, alone or after a write of the flag, leaves
behind, and the values the instructions compute. -/

namespace Sys2Proof

/-- A word of family 0x8 decodes by its low nibble (R78). -/
theorem decode_of_family_eight {op : Word} (h : family op = 0x8) : decode op = decode8 op := by rw [decode, h]; rfl

namespace Machine

/-- An 8xy_ encoding is settled by what `decode8` makes of its low nibble (R78). -/
theorem decodesAs_family_eight {m : Word} {mk : Word → Instr} (hm : family m = 0x8)
    (h : ∀ op, lowNibble op = lowNibble m → decode8 op = .ok (mk op)) : DecodesAs m 0xF00F mk :=
  decodesAs_lowNibble fun op hfam hlow => (decode_of_family_eight (hfam.trans hm)).trans (h op hlow)

/-! ### A write of one register -/

theorem setV_v_self (s : State) (x : Reg) (b : Byte) : (s.setV x b).v x = b :=
  (s.setV_v x x b).trans (if_pos rfl)

theorem setV_v_of_ne (s : State) {x r : Reg} (b : Byte) (h : r ≠ x) : (s.setV x b).v r = s.v r :=
  (s.setV_v x r b).trans (if_neg h)

theorem onlyRegs_setV (s : State) (x : Reg) (b : Byte) : OnlyRegs [x] s (s.setV x b) :=
  ⟨rfl, fun _ hj => setV_v_of_ne s b (List.ne_of_not_mem_cons hj), fun _ => rfl⟩

/-! ### The flag, then the result -/

/-- `VF <- flag`, then `V[x] <- result` (R156-R160). -/
def setFlagThen (flag : Byte) (x : Reg) (result : Byte) (s : State) : State := (s.setV VF flag).setV x result

theorem setFlagThen_v_self (flag : Byte) (x : Reg) (result : Byte) (s : State) :
    (setFlagThen flag x result s).v x = result := setV_v_self _ x result

/-- The result replaces the flag only where `x` is VF. -/
theorem setFlagThen_v_flag (flag : Byte) {x : Reg} (result : Byte) (s : State) (hx : x ≠ VF) :
    (setFlagThen flag x result s).v VF = flag :=
  (setV_v_of_ne _ result hx.symm).trans (setV_v_self s VF flag)

theorem onlyRegs_setFlagThen (flag : Byte) (x : Reg) (result : Byte) (s : State) :
    OnlyRegs [x, VF] s (setFlagThen flag x result s) := by
  refine ⟨rfl, fun j hj => ?_, fun _ => rfl⟩
  obtain ⟨hx, hVF⟩ : j ≠ x ∧ j ≠ VF := by simpa using hj
  exact (setV_v_of_ne _ result hx).trans (setV_v_of_ne s flag hVF)

/-- An operand read after the flag is written is the new flag where it is VF (D7). -/
theorem operand_after_flag_toNat (s : State) (flag : Byte) (r : Reg) :
    ((s.setV VF flag).v r).toNat = if r = VF then flag.toNat else (s.v r).toNat := by
  rw [State.setV_v, apply_ite BitVec.toNat]

/-! ### What the instructions that write VF answer -/

theorem exec_addReg (x y : Reg) (s : State) : exec (.addReg x y) s =
    .next (setFlagThen (carryFlag (s.v x) (s.v y)) x (s.v x + s.v y) s) := rfl

theorem exec_subReg (x y : Reg) (s : State) : exec (.subReg x y) s =
    let flag := greaterFlag (s.v x) (s.v y)
    .next (setFlagThen flag x ((s.setV VF flag).v x - (s.setV VF flag).v y) s) := rfl

theorem exec_subnReg (x y : Reg) (s : State) : exec (.subnReg x y) s =
    let flag := greaterFlag (s.v y) (s.v x)
    .next (setFlagThen flag x ((s.setV VF flag).v y - (s.setV VF flag).v x) s) := rfl

theorem exec_shr (x y : Reg) (s : State) : exec (.shr x y) s =
    let flag := rightBitFlag (s.v x)
    .next (setFlagThen flag x ((s.setV VF flag).v x >>> 1) s) := rfl

theorem exec_shl (x y : Reg) (s : State) : exec (.shl x y) s =
    let flag := leftBitFlag (s.v x)
    .next (setFlagThen flag x ((s.setV VF flag).v x <<< 1) s) := rfl

/-! ### The obligations -/

/-- Settles O21: the flag is `greaterFlag` of the old registers, and the difference reads its operands after the flag is
written. -/
theorem subtractionsSetGreaterFlag : Obligations.SubtractionsSetGreaterFlag := by
  refine ⟨decodesAs_family_eight rfl fun op hlow => ?subWord, decodesAs_family_eight rfl fun op hlow => ?subnWord,
    fun x y s =>
      ⟨⟨_, _, exec_subReg x y s, greaterFlag_toNat _ _, ?sub,
         fun hx => congrArg BitVec.toNat (setFlagThen_v_flag _ _ _ hx), onlyRegs_setFlagThen _ _ _ _⟩,
       ⟨_, _, exec_subnReg x y s, greaterFlag_toNat _ _, ?subn,
         fun hx => congrArg BitVec.toNat (setFlagThen_v_flag _ _ _ hx), onlyRegs_setFlagThen _ _ _ _⟩⟩⟩
  case subWord => rw [decode8, hlow]; rfl
  case subnWord => rw [decode8, hlow]; rfl
  case sub => rw [setFlagThen_v_self, sub_byte_toNat, operand_after_flag_toNat, operand_after_flag_toNat]
  case subn => rw [setFlagThen_v_self, sub_byte_toNat, operand_after_flag_toNat, operand_after_flag_toNat]

/-- Settles O22: the flag is the bit shifted out of the old `V[x]`, and the shift reads `V[x]` after the flag is
written. -/
theorem shiftsSetTheBitShiftedOut : Obligations.ShiftsSetTheBitShiftedOut := by
  refine ⟨decodesAs_family_eight rfl fun op hlow => ?shrWord, decodesAs_family_eight rfl fun op hlow => ?shlWord,
    fun x y s =>
      ⟨⟨_, _, exec_shr x y s, rightBitFlag_toNat _, ?shr,
         fun hx => congrArg BitVec.toNat (setFlagThen_v_flag _ _ _ hx), onlyRegs_setFlagThen _ _ _ _⟩,
       ⟨_, _, exec_shl x y s, leftBitFlag_toNat _, ?shl,
         fun hx => congrArg BitVec.toNat (setFlagThen_v_flag _ _ _ hx), onlyRegs_setFlagThen _ _ _ _⟩⟩⟩
  case shrWord => rw [decode8, hlow]; rfl
  case shlWord => rw [decode8, hlow]; rfl
  case shr => rw [setFlagThen_v_self, shiftRight_one_toNat, operand_after_flag_toNat]
  case shl => rw [setFlagThen_v_self, shiftLeft_one_toNat, operand_after_flag_toNat]

/-- Settles O17: both answer `setV`, of `kk` and of `V[y]`. -/
theorem registerLoads : Obligations.RegisterLoads := by
  refine ⟨decodesAs_family fun op hfam => ?immWord, decodesAs_family_eight rfl fun op hlow => ?regWord,
    fun x kk s => ⟨s.setV x kk, rfl, setV_v_self s x kk, onlyRegs_setV s x kk⟩,
    fun x y s => ⟨s.setV x (s.v y), rfl, setV_v_self s x _, onlyRegs_setV s x _⟩⟩
  case immWord => rw [decode, hfam]; rfl
  case regWord => rw [decode8, hlow]; rfl

/-- Settles O18: the answer is `setV` of the byte sum, with no write of the flag before it. -/
theorem addImmediateWraps : Obligations.AddImmediateWraps := by
  refine ⟨decodesAs_family fun op hfam => ?word, fun x kk s =>
    ⟨s.setV x (s.v x + kk), rfl, ?sum, onlyRegs_setV s x _⟩⟩
  case word => rw [decode, hfam]; rfl
  case sum => rw [setV_v_self, BitVec.toNat_add]

/-- Settles O19: each answers `setV` of the bitwise operation on the old operands. -/
theorem bitwiseOperations : Obligations.BitwiseOperations := by
  refine ⟨decodesAs_family_eight rfl fun op hlow => ?orWord, decodesAs_family_eight rfl fun op hlow => ?andWord,
    decodesAs_family_eight rfl fun op hlow => ?xorWord, fun x y s =>
      ⟨⟨s.setV x (s.v x ||| s.v y), rfl, onlyRegs_setV s x _, fun b => ?or⟩,
       ⟨s.setV x (s.v x &&& s.v y), rfl, onlyRegs_setV s x _, fun b => ?and⟩,
       ⟨s.setV x (s.v x ^^^ s.v y), rfl, onlyRegs_setV s x _, fun b => ?xor⟩⟩⟩
  case orWord => rw [decode8, hlow]; rfl
  case andWord => rw [decode8, hlow]; rfl
  case xorWord => rw [decode8, hlow]; rfl
  case or => rw [setV_v_self, BitVec.getLsbD_or]
  case and => rw [setV_v_self, BitVec.getLsbD_and]
  case xor => rw [setV_v_self, BitVec.getLsbD_xor]

/-- Settles O20: the flag is the carry of the old operands, whose sum is taken before the flag is written. -/
theorem addRegistersSetsCarry : Obligations.AddRegistersSetsCarry := by
  refine ⟨decodesAs_family_eight rfl fun op hlow => ?word, fun x y s =>
    ⟨_, exec_addReg x y s, ?sum, fun hx => ?carry, onlyRegs_setFlagThen _ _ _ _⟩⟩
  case word => rw [decode8, hlow]; rfl
  case sum => rw [setFlagThen_v_self, BitVec.toNat_add]
  case carry => rw [setFlagThen_v_flag _ _ _ hx, carryFlag_toNat]

end Machine

end Sys2Proof
end

section
/-! The index and memory-block family (R180-R185): writes of `I`, block stores, and the block load of registers. -/

namespace Sys2Proof

/-- A word of family 0xF decodes by its low byte (R80). -/
theorem decode_of_family_fifteen {op : Word} (h : family op = 0xF) : decode op = decodeF op := by rw [decode, h]; rfl

namespace Machine

/-- An Fx__ encoding is settled by what `decodeF` makes of its low byte (R80). -/
theorem decodesAs_family_fifteen {m : Word} {mk : Word → Instr} (hm : family m = 0xF)
    (h : ∀ op, fieldKK op = fieldKK m → decodeF op = .ok (mk op)) : DecodesAs m 0xF0FF mk :=
  decodesAs_lowByte fun op hfam hlow => (decode_of_family_fifteen (hfam.trans hm)).trans (h op hlow)

/-! ### Writes of `I` -/

theorem onlyIndex_setIndex (s : State) (a : Word) : OnlyIndex s (s.setIndex a) := ⟨rfl, fun _ => rfl⟩

/-- The largest byte still gives a 16-bit address, so Fx29 never wraps (R182). -/
theorem glyphAddress_toNat (v : Byte) : (glyphAddress v).toNat = 0x050 + 5 * v.toNat := by
  have := v.isLt
  rw [glyphAddress, Config.fontBase, BitVec.toNat_ofNat]
  omega

/-- Settles O25: each answers `setIndex`, whose value is the field, the 16-bit sum, or the glyph's address. -/
theorem indexLoadsAndAdd : Obligations.IndexLoadsAndAdd := by
  refine ⟨decodesAs_family fun op hfam => ?ldIWord, decodesAs_family_fifteen rfl fun op hlow => ?addIWord,
    decodesAs_family_fifteen rfl fun op hlow => ?ldFWord,
    fun nnn s => ⟨s.setIndex (zext16 nnn), rfl, zext16_toNat (by decide) nnn, onlyIndex_setIndex s _⟩,
    fun x s => ⟨⟨s.setIndex (s.index + zext16 (s.v x)), rfl, ?sum, onlyIndex_setIndex s _⟩,
      ⟨s.setIndex (glyphAddress (s.v x)), rfl, glyphAddress_toNat (s.v x), onlyIndex_setIndex s _⟩⟩⟩
  case ldIWord => rw [decode, hfam]; rfl
  case addIWord => rw [decodeF, hlow]; rfl
  case ldFWord => rw [decodeF, hlow]; rfl
  case sum => rw [State.setIndex_index, BitVec.toNat_add, zext16_toNat (by decide)]

/-! ### Block stores -/

/-- A block store of accessible bytes answers a state that holds them from `a` on, and changes no other byte. -/
theorem answerOf_storeBytes_of_accessible {s : State} {a : Word} {bs : List Byte}
    (hwf : s.mem.wf s.params.font = true) (hlen : bs.length ≤ Config.memSize) (h : Accessible s a bs.length) :
    ∃ t, answerOf (s.storeBytes a bs) = .next t ∧
      (∀ k (hk : k < bs.length), t.byteAt (State.cellOf (offsetAddr a k)) = bs[k]) ∧ OnlyBytes a bs.length s t := by
  obtain ⟨m, hstore, -, hbytes, hframe⟩ := storeBytes_ok bs hwf hlen h
  exact ⟨s.setMem m, congrArg answerOf hstore, hbytes, rfl, hframe⟩

/-- A block store raises the fault of its first byte out of range (R52). -/
theorem answerOf_storeBytes_of_firstOutOfRange {s : State} {a : Word} {bs : List Byte} {k : Nat}
    (h : FirstOutOfRange s a bs.length k) :
    answerOf (s.storeBytes a bs) = .fault (.raised (.memOutOfRange (offsetAddr a k))) :=
  congrArg answerOf (storeBytes_fault bs h)

/-- The digits are below 256, so each is stored whole (R183). -/
theorem decimalDigits_getElem_toNat (v : Byte) : (decimalDigits v)[0].toNat = v.toNat / 100 ∧
    (decimalDigits v)[1].toNat = v.toNat / 10 % 10 ∧ (decimalDigits v)[2].toNat = v.toNat % 10 := by
  have := v.isLt
  simp only [decimalDigits, List.getElem_cons_zero, List.getElem_cons_succ, BitVec.toNat_ofNat]
  omega

/-- Settles O26: Fx33 is the block store of `decimalDigits`. -/
theorem decimalDigitsAreStored : Obligations.DecimalDigitsAreStored := by
  refine ⟨decodesAs_family_fifteen rfl fun op hlow => ?word, fun x s hwf => ⟨fun hacc => ?stored, fun k hk =>
    answerOf_storeBytes_of_firstOutOfRange (bs := decimalDigits (s.v x)) hk⟩⟩
  case word => rw [decodeF, hlow]; rfl
  case stored =>
    have hlen : (decimalDigits (s.v x)).length ≤ Config.memSize := by simp [Config.memSize]
    obtain ⟨t, hexec, hbytes, hframe⟩ := answerOf_storeBytes_of_accessible hwf hlen hacc
    obtain ⟨hundreds, tens, ones⟩ := decimalDigits_getElem_toNat (s.v x)
    refine ⟨t, hexec, ?_, ?_, ?_, hframe⟩
    · rw [hbytes 0 (by simp), hundreds]
    · rw [hbytes 1 (by simp), tens]
    · rw [hbytes 2 (by simp), ones]

/-- Settles O27: Fx55 is the block store of `regsUpTo`, whose bytes are the registers in order. -/
theorem registersAreStored : Obligations.RegistersAreStored := by
  refine ⟨decodesAs_family_fifteen rfl fun op hlow => ?word, fun x s hwf => ?answer⟩
  case word => rw [decodeF, hlow]; rfl
  case answer =>
    rw [← regsUpTo_length s x]
    refine ⟨fun hacc => ?stored, fun k hk => answerOf_storeBytes_of_firstOutOfRange hk⟩
    have hlen : (s.regsUpTo x).length ≤ Config.memSize := by
      rw [regsUpTo_length, Config.memSize]
      omega
    obtain ⟨t, hexec, hbytes, hframe⟩ := answerOf_storeBytes_of_accessible hwf hlen hacc
    refine ⟨t, hexec, fun k hkx => ?register, hframe⟩
    have hk : k.val < (s.regsUpTo x).length := (Nat.lt_succ_of_le hkx).trans_eq (regsUpTo_length s x).symm
    exact (hbytes k.val hk).trans (regsUpTo_getElem s x k.val hk)

/-! ### The block load -/

/-- The state in which `V[0]` to `V[x]` hold the `x + 1` bytes from `I` on (R185). -/
def loadedRegs (s : State) (x : Reg) : State :=
  s.setRegsFrom 0 ((List.range (x.val + 1)).map fun k => s.byteAt (State.cellOf (offsetAddr s.index k)))

theorem loadedRegs_v (s : State) (x k : Reg) : (loadedRegs s x).v k =
    if k ≤ x then s.byteAt (State.cellOf (offsetAddr s.index k.val)) else s.v k := by
  simp only [loadedRegs, setRegsFrom_v, List.length_map, List.length_range, List.getElem_map, List.getElem_range,
    Nat.zero_le, true_and, Nat.zero_add, Nat.sub_zero, Nat.lt_succ_iff, dite_eq_ite, Fin.le_def]

theorem loadedRegs_frame (s : State) (x : Reg) : loadedRegs s x = { s with regs := (loadedRegs s x).regs } :=
  setRegsFrom_frame _ s 0

theorem sameMemory_loadedRegs (s : State) (x : Reg) : SameMemory s (loadedRegs s x) :=
  fun a => by rw [loadedRegs_frame]; rfl

/-- An Fx65 whose bytes are accessible answers the state with the registers loaded (R185). -/
theorem exec_ldMem_of_accessible {s : State} {x : Reg} (h : Accessible s s.index (x.val + 1)) :
    exec (.ldMem x) s = .next (loadedRegs s x) := by
  rw [exec, execLdMem, loadBytes_ok h, loadedRegs]

/-- An Fx65 raises the fault of its first byte out of range and loads nothing (R52, R185). -/
theorem exec_ldMem_of_firstOutOfRange {s : State} {x : Reg} {k : Nat} (h : FirstOutOfRange s s.index (x.val + 1) k) :
    exec (.ldMem x) s = .fault (.raised (.memOutOfRange (offsetAddr s.index k))) := by
  rw [exec, execLdMem, loadBytes_fault h]
  rfl

/-- Settles O28: the answer is `loadedRegs`, whose registers split at `x`. -/
theorem registersAreLoaded : Obligations.RegistersAreLoaded := by
  refine ⟨decodesAs_family_fifteen rfl fun op hlow => ?word, fun x s =>
    ⟨fun hacc => ⟨loadedRegs s x, exec_ldMem_of_accessible hacc, fun k hkx => ?loaded, fun k hxk => ?kept,
      loadedRegs_frame s x, sameMemory_loadedRegs s x⟩, fun k hk => exec_ldMem_of_firstOutOfRange hk⟩⟩
  case word => rw [decodeF, hlow]; rfl
  case loaded => exact (loadedRegs_v s x k).trans (if_pos hkx)
  case kept => exact (loadedRegs_v s x k).trans (if_neg (Fin.not_le.mpr hxk))

end Machine

end Sys2Proof
end

section
/-! The keypad skips (R200-R202): the key a byte names, and what Ex9E and ExA1 answer. -/

namespace Sys2Proof

/-- A word of family 0xE decodes by its low nibble (R79). -/
theorem decode_of_family_fourteen {op : Word} (h : family op = 0xE) : decode op = decodeE op := by rw [decode, h]; rfl

namespace Machine

/-- A byte that `KeySel` accepts selects the key numbered by its low 4 bits (R200). -/
theorem keySel_of_low_nibble {policy : KeyPolicy} {v : Byte} (h : ¬(policy = .fault ∧ 15 < v.toNat)) {k : Fin 16}
    (hk : k.val = v.toNat % 16) : keySel policy v = .ok k :=
  (keySel_ok h).trans (congrArg Except.ok (Fin.ext hk.symm))

/-! ### What Ex9E and ExA1 answer -/

variable {s : State} {x : Reg}

theorem exec_skp_of_keySel_ok {k : Fin 16} (h : keySel s.params.key (s.v x) = .ok k) :
    exec (.skp x) s = .next (s.skipIf (s.key k)) := by
  rw [exec, execSkp, h]

theorem exec_sknp_of_keySel_ok {k : Fin 16} (h : keySel s.params.key (s.v x) = .ok k) :
    exec (.sknp x) s = .next (s.skipIf (!s.key k)) := by
  rw [exec, execSknp, h]

theorem exec_skp_of_keySel_error {f : FaultKind} (h : keySel s.params.key (s.v x) = .error f) :
    exec (.skp x) s = .fault (.raised f) := by
  rw [exec, execSkp, h]
  rfl

theorem exec_sknp_of_keySel_error {f : FaultKind} (h : keySel s.params.key (s.v x) = .error f) :
    exec (.sknp x) s = .fault (.raised f) := by
  rw [exec, execSknp, h]
  rfl

theorem skipIf_not_pc_toNat (s : State) (c : Bool) :
    (s.skipIf (!c)).pc.toNat = if c then s.pc.toNat else (s.pc.toNat + 2) % 65536 := by
  simp only [skipIf_pc_toNat, Bool.not_eq_true', ← Bool.not_eq_true, ite_not]

/-! ### The obligation -/

/-- Settles O29: `KeySel` decides between the two clauses, and both answers are `skipIf`, on the key and on its
negation. -/
theorem keySkips : Obligations.KeySkips := by
  refine ⟨decodesAs_lowNibble fun op hfam hlow => ?skpWord, decodesAs_lowNibble fun op hfam hlow => ?sknpWord,
    fun x s => ⟨fun h k hk => ?skips, fun hfault hv => ?outOfRange⟩⟩
  case skpWord => rw [decode_of_family_fourteen hfam, decodeE, hlow]; rfl
  case sknpWord => rw [decode_of_family_fourteen hfam, decodeE, hlow]; rfl
  case skips =>
    have hsel := keySel_of_low_nibble h hk
    exact ⟨⟨_, exec_skp_of_keySel_ok hsel, onlyPc_skipIf s _, skipIf_pc_toNat s _⟩,
      ⟨_, exec_sknp_of_keySel_ok hsel, onlyPc_skipIf s _, skipIf_not_pc_toNat s _⟩⟩
  case outOfRange =>
    have hsel := keySel_fault ⟨hfault, hv⟩
    exact ⟨exec_skp_of_keySel_error hsel, exec_sknp_of_keySel_error hsel⟩

end Machine

end Sys2Proof
end

section
/-! The decoder against the encoder and the tables (R71, R85-R88, R90): the canonical word of an instruction decodes to
it, and which words decode at all. -/

namespace Sys2Proof

/-! ### The canonical word decodes to its instruction -/

/-- Family and sub-opcode of the canonical word lead the decoder to the instruction, and the word's fields are its
operands (R71, R72). -/
theorem decode_encode {i : Instr} (hwf : i.wellFormed = true) : decode (encode i) = .ok i := by
  cases i with
  | cls | ret => rfl
  | jp | call | ldI | jpV0 | seImm | sneImm | ldImm | addImm | rnd | seReg | sneReg => simp [encode, decode]
  | ldReg | orReg | andReg | xorReg | addReg | subReg | shr | subnReg | shl => simp [encode, decode, decode8]
  | drw x y n =>
    have hn : n < 16 := of_decide_eq_true hwf
    simp [encode, decode, Nat.mod_eq_of_lt hn]
  | skp | sknp => simp [encode, decode, decodeE]
  | ldVxDT | ldVxK | ldDTVx | ldSTVx | addI | ldF | ldB | stMem | ldMem => simp [encode, decode, decodeF]

/-- A stream that begins with a word's two bytes decodes as the word (R53, R70). -/
theorem decodeBytes_word (w : Word) (rest : List Byte) :
    decodeBytes (highByte w :: lowByte w :: rest) = (decode w).map fun i => (i, rest) := by
  rw [decodeBytes, wordOfBytes_highByte_lowByte]

/-- Settles O2: `decode_encode`, and for the stream `decodeBytes_word`. -/
theorem encodeThenDecodeGivesInstruction : Obligations.EncodeThenDecodeGivesInstruction := by
  intro i hwf
  have hword := decode_encode hwf
  refine ⟨hword, fun rest => ?stream⟩
  case stream => exact (decodeBytes_word (encode i) rest).trans (by rw [hword]; rfl)

/-! ### Which words decode (R85) -/

/-- The unrecognised words of the table of R85. -/
def Unlisted (op : Word) : Prop :=
  (family op = 0x0 ∧ lowNibble op ∉ [0x0#4, 0xE#4]) ∨
  (family op = 0x8 ∧ lowNibble op ∈ [0x8#4, 0x9#4, 0xA#4, 0xB#4, 0xC#4, 0xD#4, 0xF#4]) ∨
  (family op = 0xE ∧ lowNibble op ∉ [0x1#4, 0xE#4]) ∨
  (family op = 0xF ∧ fieldKK op ∉ [0x07#8, 0x0A#8, 0x15#8, 0x18#8, 0x1E#8, 0x29#8, 0x33#8, 0x55#8, 0x65#8])

/-- An answer of the decoder for a word that a table rejects under the condition `unlisted`: the rejection names the
word, and an accepted word gives a well-formed instruction. -/
def DecodedAs (op : Word) (unlisted : Prop) (d : Except DecodeReject Instr) : Prop :=
  (unlisted ∧ d = .error (.unrecognized op)) ∨ (¬unlisted ∧ ∃ i, d = .ok i ∧ i.wellFormed = true)

theorem decodedAs_ok {op : Word} {unlisted : Prop} {i : Instr} (h : ¬unlisted) (hwf : i.wellFormed = true) :
    DecodedAs op unlisted (.ok i) := .inr ⟨h, i, rfl, hwf⟩

theorem decodedAs_error {op : Word} {unlisted : Prop} (h : unlisted) :
    DecodedAs op unlisted (.error (.unrecognized op)) := .inl ⟨h, rfl⟩

theorem decode0_decodedAs (op : Word) : DecodedAs op (lowNibble op ∉ [0x0#4, 0xE#4]) (decode0 op) := by
  rw [decode0]
  split
  case h_3 => exact decodedAs_error (by simp_all)
  all_goals exact decodedAs_ok (by simp [*]) rfl

theorem decode8_decodedAs (op : Word) :
    DecodedAs op (lowNibble op ∈ [0x8#4, 0x9#4, 0xA#4, 0xB#4, 0xC#4, 0xD#4, 0xF#4]) (decode8 op) := by
  rw [decode8]
  generalize lowNibble op = k
  split
  case h_10 => exact decodedAs_error (by revert k; decide)
  all_goals exact decodedAs_ok (by decide) rfl

theorem decodeE_decodedAs (op : Word) : DecodedAs op (lowNibble op ∉ [0x1#4, 0xE#4]) (decodeE op) := by
  rw [decodeE]
  split
  case h_3 => exact decodedAs_error (by simp_all)
  all_goals exact decodedAs_ok (by simp [*]) rfl

theorem decodeF_decodedAs (op : Word) :
    DecodedAs op (fieldKK op ∉ [0x07#8, 0x0A#8, 0x15#8, 0x18#8, 0x1E#8, 0x29#8, 0x33#8, 0x55#8, 0x65#8])
      (decodeF op) := by
  rw [decodeF]
  split
  case h_10 => exact decodedAs_error (by simp_all)
  all_goals exact decodedAs_ok (by simp [*]) rfl

/-- The table of R85, family by family. -/
theorem decode_decodedAs (op : Word) : DecodedAs op (Unlisted op) (decode op) := by
  rw [decode]
  split
  case h_1 hfam => simpa [Unlisted, hfam] using decode0_decodedAs op
  case h_9 hfam => simpa [Unlisted, hfam] using decode8_decodedAs op
  case h_15 hfam => simpa [Unlisted, hfam] using decodeE_decodedAs op
  case h_16 =>
    have hfam : family op = 0xF := by
      generalize family op = k at *
      revert k
      decide
    simpa [Unlisted, hfam] using decodeF_decodedAs op
  case h_14 hfam => exact decodedAs_ok (by simp [Unlisted, hfam]) (decide_eq_true (op.extractLsb' 0 4).isLt)
  all_goals exact decodedAs_ok (by simp [Unlisted, *]) rfl

/-- The decoder gives well-formed instructions only (R72). -/
theorem wellFormed_of_decode {op : Word} {i : Instr} (h : decode op = .ok i) : i.wellFormed = true := by
  obtain ⟨-, hd⟩ | ⟨-, j, hd, hwf⟩ := decode_decodedAs op <;> rw [h] at hd
  · exact absurd hd (by simp)
  · rwa [Except.ok.inj hd]

/-- Settles O3: what the decoder gives is well formed, so `decode_encode` applies to it. -/
theorem aliasesDecodeAsCanonicalWord : Obligations.AliasesDecodeAsCanonicalWord := by
  intro op i h
  have hwf := wellFormed_of_decode h
  exact ⟨hwf, (decode_encode hwf).trans h.symm⟩

/-- Settles O5: the two sides of `DecodedAs`, whose condition is the table of R85. -/
theorem unrecognizedWordsAreThoseListed : Obligations.UnrecognizedWordsAreThoseListed := by
  intro op
  change (decode op = .error (.unrecognized op) ↔ Unlisted op) ∧ _
  obtain ⟨hu, hd⟩ | ⟨hu, i, hd, -⟩ := decode_decodedAs op
  · exact ⟨iff_of_true hd hu, .inl hd⟩
  · exact ⟨iff_of_false (by simp [hd]) hu, .inr ⟨i, hd⟩⟩

/-- Settles O1: the decoder run on each of the words. -/
theorem vectorWordsDecode : Obligations.VectorWordsDecode := by
  unfold Obligations.VectorWordsDecode
  decide

end Sys2Proof
end

section
/-! What an instruction that answers a next state did to the state it ran in: one inversion of `exec` for all
instructions, from which each component's writers are read off (R20-R38, R56). -/

namespace Sys2Proof

/-! ### The instructions that write a component -/

/-- The instructions that write VF, then `V[x]` (R156-R160). -/
def Instr.WritesFlagThenReg (i : Instr) (x : Reg) : Prop :=
  ∃ y, i = .addReg x y ∨ i = .subReg x y ∨ i = .shr x y ∨ i = .subnReg x y ∨ i = .shl x y

/-- The instructions with a destination that may be `V[j]` (R20). -/
def Instr.WritesReg (i : Instr) (j : Reg) : Prop :=
  (∃ kk, i = .ldImm j kk ∨ i = .addImm j kk ∨ i = .rnd j kk) ∨
  (∃ y, i = .ldReg j y ∨ i = .orReg j y ∨ i = .andReg j y ∨ i = .xorReg j y) ∨ i.WritesFlagThenReg j ∨
  i = .ldVxDT j ∨ i = .ldVxK j ∨ ∃ x, j ≤ x ∧ i = .ldMem x

/-- The instructions that write VF, as a flag or as their destination (R37). -/
def Instr.WritesFlag (i : Instr) : Prop :=
  (∃ x, i.WritesFlagThenReg x) ∨ (∃ x y n, i = .drw x y n) ∨
  (∃ kk, i = .ldImm VF kk ∨ i = .addImm VF kk ∨ i = .rnd VF kk) ∨
  (∃ y, i = .ldReg VF y ∨ i = .orReg VF y ∨ i = .andReg VF y ∨ i = .xorReg VF y) ∨
  i = .ldVxDT VF ∨ i = .ldVxK VF ∨ i = .ldMem VF

/-- No register is above VF, so only the longest block load reaches it. -/
theorem Instr.writesFlag_of_writesReg {i : Instr} (h : i.WritesReg VF) : i.WritesFlag := by
  obtain himm | hreg | hflag | hdt | hkey | ⟨x, hx, rfl⟩ := h
  · exact .inr (.inr (.inl himm))
  · exact .inr (.inr (.inr (.inl hreg)))
  · exact .inl ⟨VF, hflag⟩
  · exact .inr (.inr (.inr (.inr (.inl hdt))))
  · exact .inr (.inr (.inr (.inr (.inr (.inl hkey)))))
  · obtain rfl : x = VF := le_antisymm (Fin.le_last x) hx
    exact .inr (.inr (.inr (.inr (.inr (.inr rfl)))))

/-- The instructions that write `I` (R27). -/
def Instr.WritesIndex (i : Instr) : Prop := (∃ nnn, i = .ldI nnn) ∨ ∃ x, i = .addI x ∨ i = .ldF x

/-- The instructions that write memory (R56). -/
def Instr.WritesMemory (i : Instr) : Prop := ∃ x, i = .ldB x ∨ i = .stMem x

/-- The instructions that may write the advanced `PC` (R25). -/
def Instr.WritesPc (i : Instr) : Prop :=
  i = .ret ∨ (∃ nnn, i = .jp nnn ∨ i = .call nnn ∨ i = .jpV0 nnn) ∨ (∃ x kk, i = .seImm x kk ∨ i = .sneImm x kk) ∨
  (∃ x y, i = .seReg x y ∨ i = .sneReg x y) ∨ ∃ x, i = .skp x ∨ i = .sknp x ∨ i = .ldVxK x

namespace Machine

variable {i : Instr} {s t : State}

/-! ### What the instructions with more than one answer answered, if it was a next state -/

/-- A key test under the policy of `s` tests the key that the low nibble names, unless it raises a fault (R200). -/
theorem keySel_cases (s : State) (x : Reg) :
    keySel s.params.key (s.v x) = .ok (Fin.ofNat 16 (s.v x).toNat) ∨
      ∃ k, keySel s.params.key (s.v x) = .error k := by
  by_cases h : s.params.key = .fault ∧ 15 < (s.v x).toNat
  · exact .inr ⟨_, keySel_fault h⟩
  · exact .inl (keySel_ok h)

theorem exec_skp_next_inv {x : Reg} (hx : exec (.skp x) s = .next t) :
    t = s.skipIf (s.key (Fin.ofNat 16 (s.v x).toNat)) := by
  obtain hsel | ⟨k, hsel⟩ := keySel_cases s x
  · exact (Host.Outcome.next.inj ((exec_skp_of_keySel_ok hsel).symm.trans hx)).symm
  · simp [exec_skp_of_keySel_error hsel] at hx

theorem exec_sknp_next_inv {x : Reg} (hx : exec (.sknp x) s = .next t) :
    t = s.skipIf (!s.key (Fin.ofNat 16 (s.v x).toNat)) := by
  obtain hsel | ⟨k, hsel⟩ := keySel_cases s x
  · exact (Host.Outcome.next.inj ((exec_sknp_of_keySel_ok hsel).symm.trans hx)).symm
  · simp [exec_sknp_of_keySel_error hsel] at hx

theorem exec_call_next_inv {nnn : Addr12} (hx : exec (.call nnn) s = .next t) :
    ¬(s.params.stack = .fault ∧ s.depth = 16) ∧ t = (s.push.setPc (zext16 nnn)).setDepth
      (if s.params.stack = .fault then s.depth + 1 else s.depth) := by
  by_cases hover : s.params.stack = .fault ∧ s.depth = 16
  · simp [exec_call_of_overflow hover] at hx
  · exact ⟨hover, (Host.Outcome.next.inj ((exec_call_of_not_overflow hover nnn).symm.trans hx)).symm⟩

theorem exec_ret_next_inv (hx : exec .ret s = .next t) :
    ¬(s.params.stack = .fault ∧ s.depth = 0) ∧
      t = s.pop.setDepth (if s.params.stack = .fault then s.depth - 1 else s.depth) := by
  by_cases hunder : s.params.stack = .fault ∧ s.depth = 0
  · simp [exec_ret_of_underflow hunder] at hx
  · exact ⟨hunder, (Host.Outcome.next.inj ((exec_ret_of_not_underflow hunder).symm.trans hx)).symm⟩

theorem exec_drw_next_inv {x y : Reg} {n : Nat} (hx : exec (.drw x y n) s = .next t) :
    t = (s.setVideo (drawnSprite s x y n).1).setV VF (flagByte (drawnSprite s x y n).2) := by
  obtain hacc | ⟨k, hk⟩ := accessible_or_first s s.index n
  · exact (Host.Outcome.next.inj ((exec_drw_of_accessible hacc x y).symm.trans hx)).symm
  · simp [exec_drw_of_firstOutOfRange hk] at hx

theorem exec_ldMem_next_inv {x : Reg} (hx : exec (.ldMem x) s = .next t) : t = loadedRegs s x := by
  obtain hacc | ⟨k, hk⟩ := accessible_or_first s s.index (x.val + 1)
  · exact (Host.Outcome.next.inj ((exec_ldMem_of_accessible hacc).symm.trans hx)).symm
  · simp [exec_ldMem_of_firstOutOfRange hk] at hx

theorem exec_ldVxK_of_pressed {k : Fin 16} (h : lowestPressed s = some k) (x : Reg) :
    exec (.ldVxK x) s = .next (s.setV x (keyByte k)) := by
  rw [exec, execLdVxK, h]

theorem exec_ldVxK_of_not_pressed (h : lowestPressed s = none) (x : Reg) :
    exec (.ldVxK x) s = .next (s.setPc (s.pc - 2)) := by
  rw [exec, execLdVxK, h]

theorem exec_ldVxK_next_inv {x : Reg} (hx : exec (.ldVxK x) s = .next t) :
    (∃ k, lowestPressed s = some k ∧ t = s.setV x (keyByte k)) ∨ (lowestPressed s = none ∧ t = s.setPc (s.pc - 2)) := by
  cases h : lowestPressed s with
  | some k => exact .inl ⟨k, rfl, (Host.Outcome.next.inj ((exec_ldVxK_of_pressed h x).symm.trans hx)).symm⟩
  | none => exact .inr ⟨rfl, (Host.Outcome.next.inj ((exec_ldVxK_of_not_pressed h x).symm.trans hx)).symm⟩

/-! ### The inversion of `exec` -/

/-- What an instruction that answers `t` from `s` wrote. -/
inductive Effect (s : State) : Instr → State → Prop where
  | reg {i : Instr} {x : Reg} (b : Byte) (hw : i.WritesReg x) : Effect s i (s.setV x b)
  | flagThenReg {i : Instr} {x : Reg} (flag result : Byte) (hw : i.WritesFlagThenReg x) :
      Effect s i (setFlagThen flag x result s)
  | regs (x : Reg) (vs : Vector Byte 16) (hkept : ∀ j, x < j → { s with regs := vs }.v j = s.v j) :
      Effect s (.ldMem x) { s with regs := vs }
  | index {i : Instr} (a : Word) (hw : i.WritesIndex) : Effect s i (s.setIndex a)
  | memory {i : Instr} (m : Memory) (hw : i.WritesMemory)
      (hwf : s.mem.wf s.params.font = true → m.wf s.params.font = true) : Effect s i (s.setMem m)
  | clear : Effect s .cls (s.setVideo Video.blank)
  | draw (x y : Reg) (n : Nat) (vid : Video) (flag : Byte) : Effect s (.drw x y n) ((s.setVideo vid).setV VF flag)
  | delayTimer (x : Reg) : Effect s (.ldDTVx x) (s.setDt (s.v x))
  | soundTimer (x : Reg) : Effect s (.ldSTVx x) (s.setSt (s.v x))
  | pc {i : Instr} (a : Word) (hw : i.WritesPc) : Effect s i (s.setPc a)
  | call (nnn : Addr12) (h : ¬(s.params.stack = .fault ∧ s.depth = 16)) :
      Effect s (.call nnn) ((s.push.setPc (zext16 nnn)).setDepth
        (if s.params.stack = .fault then s.depth + 1 else s.depth))
  | ret (h : ¬(s.params.stack = .fault ∧ s.depth = 0)) :
      Effect s .ret (s.pop.setDepth (if s.params.stack = .fault then s.depth - 1 else s.depth))

/-- A skip writes `PC`, with its own value where the condition fails. -/
theorem effect_skipIf (hw : i.WritesPc) (c : Bool) : Effect s i (s.skipIf c) := by
  cases c with
  | false => exact .pc s.pc hw
  | true => exact .pc (s.pc + 2) hw

/-- A block store of at most 4096 bytes writes memory and keeps its canonical form. -/
theorem effect_storeBytes (hw : i.WritesMemory) {a : Word} {bs : List Byte} (hlen : bs.length ≤ Config.memSize)
    (h : answerOf (s.storeBytes a bs) = .next t) : Effect s i t := by
  cases hstore : s.storeBytes a bs with
  | error k => simp [hstore, answerOf, raise] at h
  | ok u =>
    rw [hstore] at h
    obtain rfl := Host.Outcome.next.inj h
    rw [storeBytes_frame bs hstore]
    refine .memory _ hw fun hwf => ?_
    obtain ⟨-, -, hkept, -⟩ := storeBytes_inv hwf hlen hstore
    exact hkept

/-- Every next state is that of an effect. -/
theorem effect_of_exec (h : exec i s = .next t) : Effect s i t := by
  cases i with
  | ldImm | addImm | rnd | ldReg | orReg | andReg | xorReg | ldVxDT =>
    obtain rfl := Host.Outcome.next.inj h
    exact .reg _ (by simp [Instr.WritesReg])
  | addReg | subReg | shr | subnReg | shl =>
    obtain rfl := Host.Outcome.next.inj h
    exact .flagThenReg _ _ (by simp [Instr.WritesFlagThenReg])
  | ldI | addI | ldF =>
    obtain rfl := Host.Outcome.next.inj h
    exact .index _ (by simp [Instr.WritesIndex])
  | cls =>
    obtain rfl := Host.Outcome.next.inj h
    exact .clear
  | ldDTVx x =>
    obtain rfl := Host.Outcome.next.inj h
    exact .delayTimer x
  | ldSTVx x =>
    obtain rfl := Host.Outcome.next.inj h
    exact .soundTimer x
  | jp | jpV0 =>
    obtain rfl := Host.Outcome.next.inj h
    exact .pc _ (by simp [Instr.WritesPc])
  | seImm | sneImm | seReg | sneReg =>
    obtain rfl := Host.Outcome.next.inj h
    exact effect_skipIf (by simp [Instr.WritesPc]) _
  | skp x =>
    obtain rfl := exec_skp_next_inv h
    exact effect_skipIf (by simp [Instr.WritesPc]) _
  | sknp x =>
    obtain rfl := exec_sknp_next_inv h
    exact effect_skipIf (by simp [Instr.WritesPc]) _
  | ldVxK x =>
    obtain ⟨k, -, rfl⟩ | ⟨-, rfl⟩ := exec_ldVxK_next_inv h
    · exact .reg _ (by simp [Instr.WritesReg])
    · exact .pc _ (by simp [Instr.WritesPc])
  | ldB x => exact effect_storeBytes ⟨x, .inl rfl⟩ (by simp [Config.memSize]) h
  | stMem x => exact effect_storeBytes ⟨x, .inr rfl⟩ (by rw [regsUpTo_length, Config.memSize]; omega) h
  | drw x y n =>
    obtain rfl := exec_drw_next_inv h
    exact .draw x y n _ _
  | ldMem x =>
    obtain rfl := exec_ldMem_next_inv h
    have hkept : ∀ j, x < j → (loadedRegs s x).v j = s.v j := fun j hj =>
      (loadedRegs_v s x j).trans (if_neg (Fin.not_le.mpr hj))
    rw [loadedRegs_frame]
    exact .regs x _ hkept
  | call nnn =>
    obtain ⟨hover, rfl⟩ := exec_call_next_inv h
    exact .call nnn hover
  | ret =>
    obtain ⟨hunder, rfl⟩ := exec_ret_next_inv h
    exact .ret hunder

/-! ### Component by component -/

namespace Effect

theorem stack (h : Effect s i t) : t.stack = s.stack ∨ ∃ nnn, i = .call nnn := by
  cases h with
  | call nnn => exact .inr ⟨nnn, rfl⟩
  | _ => exact .inl rfl

theorem sp_depth (h : Effect s i t) : t.sp = s.sp ∧ t.depth = s.depth ∨ i = .ret ∨ ∃ nnn, i = .call nnn := by
  cases h with
  | call nnn => exact .inr (.inr ⟨nnn, rfl⟩)
  | ret => exact .inr (.inl rfl)
  | _ => exact .inl ⟨rfl, rfl⟩

theorem index_eq (h : Effect s i t) : t.index = s.index ∨ i.WritesIndex := by
  cases h with
  | index a hw => exact .inr hw
  | _ => exact .inl rfl

theorem video (h : Effect s i t) : t.video = s.video ∨ i = .cls ∨ ∃ x y n, i = .drw x y n := by
  cases h with
  | clear => exact .inr (.inl rfl)
  | draw x y n => exact .inr (.inr ⟨x, y, n, rfl⟩)
  | _ => exact .inl rfl

theorem mem (h : Effect s i t) : t.mem = s.mem ∨ i.WritesMemory := by
  cases h with
  | memory m hw => exact .inr hw
  | _ => exact .inl rfl

theorem dt (h : Effect s i t) : t.dt = s.dt ∨ ∃ x, i = .ldDTVx x := by
  cases h with
  | delayTimer x => exact .inr ⟨x, rfl⟩
  | _ => exact .inl rfl

theorem st (h : Effect s i t) : t.st = s.st ∨ ∃ x, i = .ldSTVx x := by
  cases h with
  | soundTimer x => exact .inr ⟨x, rfl⟩
  | _ => exact .inl rfl

theorem pc_eq (h : Effect s i t) : t.pc = s.pc ∨ i.WritesPc := by
  cases h with
  | pc a hw => exact .inr hw
  | call nnn => exact .inr (.inr (.inl ⟨nnn, .inr (.inl rfl)⟩))
  | ret => exact .inr (.inl rfl)
  | _ => exact .inl rfl

theorem v_eq (h : Effect s i t) {j : Reg} (hVF : j ≠ VF) : t.v j = s.v j ∨ i.WritesReg j := by
  cases h with
  | @reg _ x b hw =>
    by_cases hj : j = x
    · exact .inr (hj ▸ hw)
    · exact .inl (setV_v_of_ne s b hj)
  | @flagThenReg _ x flag result hw =>
    by_cases hj : j = x
    · exact .inr (.inr (.inr (.inl (hj ▸ hw))))
    · exact .inl ((setV_v_of_ne _ result hj).trans (setV_v_of_ne s flag hVF))
  | regs x vs hkept =>
    obtain hj | hj := le_or_gt j x
    · exact .inr (.inr (.inr (.inr (.inr (.inr ⟨x, hj, rfl⟩)))))
    · exact .inl (hkept j hj)
  | draw x y n vid flag => exact .inl (setV_v_of_ne _ flag hVF)
  | _ => exact .inl rfl

theorem flag_eq (h : Effect s i t) : t.v VF = s.v VF ∨ i.WritesFlag := by
  cases h with
  | @reg _ x b hw =>
    by_cases hx : VF = x
    · exact .inr (Instr.writesFlag_of_writesReg (hx ▸ hw))
    · exact .inl (setV_v_of_ne s b hx)
  | @flagThenReg _ x flag result hw => exact .inr (.inl ⟨x, hw⟩)
  | regs x vs hkept =>
    obtain hx | hx := le_or_gt VF x
    · exact .inr (Instr.writesFlag_of_writesReg (.inr (.inr (.inr (.inr (.inr ⟨x, hx, rfl⟩))))))
    · exact .inl (hkept VF hx)
  | draw x y n vid flag => exact .inr (.inr (.inl ⟨x, y, n, rfl⟩))
  | _ => exact .inl rfl

/-- No instruction writes the keypad, the latch, the phase, the parameters or the model's own bookkeeping. -/
theorem frame (h : Effect s i t) : t.keys = s.keys ∧ t.op = s.op ∧ t.phase = s.phase ∧ t.params = s.params ∧
    t.event = s.event ∧ t.ticks = s.ticks := by
  cases h <;> exact ⟨rfl, rfl, rfl, rfl, rfl, rfl⟩

end Effect

/-- Settles O41: `effect_of_exec`, then the writers of each component. -/
theorem onlyNamedInstructionsChangeEachComponent : Obligations.OnlyNamedInstructionsChangeEachComponent := by
  intro i s t h
  have he := effect_of_exec h
  refine ⟨he.stack, he.sp_depth, he.index_eq, he.video, he.mem, he.dt, he.st, ?flag, fun j hj => he.v_eq hj, he.pc_eq,
    he.frame⟩
  case flag =>
    obtain hkept | ⟨x, y, hy⟩ | hrest := he.flag_eq
    · exact .inl hkept
    · exact .inr (.inl ⟨x, y, hy⟩)
    · exact .inr (.inr hrest)

end Machine

end Sys2Proof
end

section
/-! The tick (R73, R83, R89, R223): the four things a step can answer, forwards, and what follows for timers, `PC`, the
phase and a faulting tick. -/

namespace Sys2Proof.Machine

variable {s t : State} {w : Word} {i : Instr} {k : FaultKind}

/-! ### What a step answers -/

theorem step_of_fetch_error (hp : s.phase.admitsTick = true) (hf : s.fetch = .error k) :
    step s = .next (s.takeFault k) := by
  rw [step, tick, if_pos hp, hf]

theorem step_of_fetch_ok (hp : s.phase.admitsTick = true) (hf : s.fetch = .ok w) : step s = runWord s w := by
  rw [step, tick, if_pos hp, hf]

theorem step_of_exec (hp : s.phase.admitsTick = true) (hf : s.fetch = .ok w) (hd : decode w = .ok i) :
    step s = settle s (exec i (s.latch w)) := by
  rw [step_of_fetch_ok hp hf, runWord, hd]

theorem step_of_exec_next (hp : s.phase.admitsTick = true) (hf : s.fetch = .ok w) (hd : decode w = .ok i)
    (hx : exec i (s.latch w) = .next t) : step s = .next t.endTick := by
  rw [step_of_exec hp hf hd, hx, settle]

theorem step_of_exec_raised (hp : s.phase.admitsTick = true) (hf : s.fetch = .ok w) (hd : decode w = .ok i)
    (hx : exec i (s.latch w) = .fault (.raised k)) : step s = .next (s.takeFault k) := by
  rw [step_of_exec hp hf hd, hx, settle]

theorem step_of_decode_error {e : DecodeReject} (hp : s.phase.admitsTick = true) (hf : s.fetch = .ok w)
    (hd : decode w = .error e) : step s = .next ((s.latch w).setEvent (some { op := w, p := s.pc })).endTick := by
  rw [step_of_fetch_ok hp hf, runWord, hd]

theorem step_of_not_admitsTick (hp : ¬s.phase.admitsTick = true) : step s = .fault (.noTick s.phase) := by
  rw [step, tick, if_neg hp]

/-- A phase that admits a tick is `Boot`, `Ready` or `Run` (R40). -/
theorem admitsTick_iff {p : Phase} : p.admitsTick = true ↔ p = .boot ∨ p = .ready ∨ p = .run := by
  cases p <;> simp [Phase.admitsTick]

/-- A tick that may run answers a next state. -/
theorem step_total (hp : s.phase.admitsTick = true) : ∃ t, step s = .next t := by
  obtain ⟨w, hf⟩ | ⟨k, hf, -⟩ := fetch_cases s
  · cases hd : decode w with
    | error e => exact ⟨_, step_of_decode_error hp hf hd⟩
    | ok i =>
      obtain ⟨t, hx⟩ | ⟨k, hx, -⟩ := exec_cases i (s.latch w)
      · exact ⟨_, step_of_exec_next hp hf hd hx⟩
      · exact ⟨_, step_of_exec_raised hp hf hd hx⟩
  · exact ⟨_, step_of_fetch_error hp hf⟩

/-! ### How a step ended -/

/-- The state at the end of a completed tick that fetched `w`, before the timer step: what the instruction answered, or
the latched state with the event of an unrecognised word. -/
inductive Completed (s : State) (w : Word) : State → Prop where
  | executed {i : Instr} {u : State} (hd : decode w = .ok i) (hx : exec i (s.latch w) = .next u) : Completed s w u
  | unrecognized {e : DecodeReject} (hd : decode w = .error e) :
      Completed s w ((s.latch w).setEvent (some { op := w, p := s.pc }))

/-- A step took a model fault whose condition held, or completed (R89, R223). -/
theorem step_faulted_or_completed (h : step s = .next t) : s.phase.admitsTick = true ∧
    ((∃ k, k.Raisable s ∧ t = s.takeFault k) ∨ ∃ w u, s.fetch = .ok w ∧ Completed s w u ∧ t = u.endTick) := by
  obtain ⟨hp, ⟨k, -, hk, rfl⟩ | ⟨w, hf, ⟨i, u, hd, hx, rfl⟩ | ⟨i, k, -, -, hk, rfl⟩ | ⟨e, hd, rfl⟩⟩⟩ := step_cases h
  · exact ⟨hp, .inl ⟨k, hk, rfl⟩⟩
  · exact ⟨hp, .inr ⟨w, u, hf, .executed hd hx, rfl⟩⟩
  · exact ⟨hp, .inl ⟨k, hk, rfl⟩⟩
  · exact ⟨hp, .inr ⟨w, _, hf, .unrecognized hd, rfl⟩⟩

/-- A step that ends in phase `Run` completed. -/
theorem completed_of_step (hf : s.fetch = .ok w) (h : step s = .next t) (hrun : t.phase = .run) :
    ∃ u, Completed s w u ∧ t = u.endTick := by
  obtain ⟨-, ⟨k, -, rfl⟩ | ⟨w', u, hf', hc, rfl⟩⟩ := step_faulted_or_completed h
  · exact absurd hrun (by simp)
  · obtain rfl := Except.ok.inj (hf.symm.trans hf')
    exact ⟨u, hc, rfl⟩

/-! ### The tick's rules -/

/-- The state that the execute step runs in, component by component (R74, R75). -/
theorem latch_eq_record (s : State) (w : Word) : s.latch w = { s with op := w, pc := s.pc + 2, event := none } := rfl

/-- The state after the timer step, component by component (R83, R89). -/
theorem endTick_eq_record (s : State) : s.endTick = { s with
    dt := State.countDown s.dt, st := State.countDown s.st, phase := .run, ticks := s.ticks + 1 } := rfl

/-- Settles O32: a step is `settle` of the execute step. -/
theorem stepRunsTheDecodedInstruction : Obligations.StepRunsTheDecodedInstruction := by
  intro s w i hp hacc hw hd
  have hf : s.fetch = .ok w := (fetch_ok hacc).trans (congrArg Except.ok hw.symm)
  exact ⟨fun t hx => step_of_exec_next hp hf hd hx, fun k hx => step_of_exec_raised hp hf hd hx⟩

/-- Settles O33: the answer of `step_of_decode_error`, written out. -/
theorem unrecognizedWordIsReportedNoOp : Obligations.UnrecognizedWordIsReportedNoOp := by
  intro s w hp hf hd
  rw [step_of_decode_error hp hf hd, endTick_eq_record, latch_eq_record]
  rfl

/-! ### Timers (R83) -/

namespace Completed

variable {u : State} {x : Reg}

/-- In a completed tick whose word decodes, the instruction answered. -/
theorem exec_eq (hc : Completed s w u) (hd : decode w = .ok i) : exec i (s.latch w) = .next u := by
  cases hc with
  | executed hd' hx => rwa [Except.ok.inj (hd.symm.trans hd')]
  | unrecognized hd' => exact absurd (hd.symm.trans hd') (by simp)

theorem dt_of_not_written (hc : Completed s w u) (hne : ∀ x, decode w ≠ .ok (.ldDTVx x)) : u.dt = s.dt := by
  cases hc with
  | executed hd hx => exact (effect_of_exec hx).dt.resolve_right fun ⟨x, hi⟩ => hne x (hi ▸ hd)
  | unrecognized => rfl

theorem dt_of_written (hc : Completed s w u) (hd : decode w = .ok (.ldDTVx x)) : u.dt = s.v x := by
  obtain rfl := Host.Outcome.next.inj (hc.exec_eq hd)
  rfl

theorem st_of_not_written (hc : Completed s w u) (hne : ∀ x, decode w ≠ .ok (.ldSTVx x)) : u.st = s.st := by
  cases hc with
  | executed hd hx => exact (effect_of_exec hx).st.resolve_right fun ⟨x, hi⟩ => hne x (hi ▸ hd)
  | unrecognized => rfl

theorem st_of_written (hc : Completed s w u) (hd : decode w = .ok (.ldSTVx x)) : u.st = s.v x := by
  obtain rfl := Host.Outcome.next.inj (hc.exec_eq hd)
  rfl

end Completed

theorem endTick_dt_toNat (s : State) : s.endTick.dt.toNat = s.dt.toNat - 1 := State.countDown_toNat s.dt

theorem endTick_st_toNat (s : State) : s.endTick.st.toNat = s.st.toNat - 1 := State.countDown_toNat s.st

/-- Settles O35: the timers before the timer step are the old ones or the register written. -/
theorem timersCountDownEveryTick : Obligations.TimersCountDownEveryTick := by
  intro s t w hf h hrun
  obtain ⟨u, hc, rfl⟩ := completed_of_step hf h hrun
  rw [endTick_dt_toNat, endTick_st_toNat]
  exact ⟨fun hne => by rw [hc.dt_of_not_written hne], fun x hd => by rw [hc.dt_of_written hd],
    fun hne => by rw [hc.st_of_not_written hne], fun x hd => by rw [hc.st_of_written hd]⟩

/-! ### `PC` (R25) -/

/-- Bnnn's target as the table has it: the sum of two numbers, mod 2^16. -/
theorem jumpTarget_eq_ofNat (nnn : Addr12) (v0 : Byte) :
    jumpTarget nnn v0 = BitVec.ofNat 16 (nnn.toNat + v0.toNat) := by
  apply BitVec.eq_of_toNat_eq
  rw [jumpTarget_toNat, BitVec.toNat_ofNat]

/-- A skip moves from the advanced `PC` on (R124). -/
theorem skipIf_latch_pc (s : State) (w : Word) (c : Bool) :
    ((s.latch w).skipIf c).pc = if c = true then s.pc + 4 else s.pc + 2 := by
  cases c with
  | false => rfl
  | true => exact BitVec.add_assoc s.pc 2 2

theorem skipIf_latch_beq_pc (s : State) (w : Word) (a b : Byte) :
    ((s.latch w).skipIf (a == b)).pc = if a = b then s.pc + 4 else s.pc + 2 := by
  simp only [skipIf_latch_pc, beq_iff_eq]

theorem skipIf_latch_bne_pc (s : State) (w : Word) (a b : Byte) :
    ((s.latch w).skipIf (a != b)).pc = if a = b then s.pc + 2 else s.pc + 4 := by
  simp only [skipIf_latch_pc, bne_iff_ne, ne_eq, ite_not]

theorem skipIf_latch_not_pc (s : State) (w : Word) (c : Bool) :
    ((s.latch w).skipIf (!c)).pc = if c = true then s.pc + 2 else s.pc + 4 := by
  rw [skipIf_latch_pc]
  cases c <;> rfl

/-- A blocked Fx0A goes back to its own address (R204). -/
theorem pc_of_exec_ldVxK {x : Reg} (hx : exec (.ldVxK x) (s.latch w) = .next t) :
    t.pc = if ∃ k, s.key k = true then s.pc + 2 else s.pc := by
  obtain ⟨k, hk, rfl⟩ | ⟨hnone, rfl⟩ := exec_ldVxK_next_inv hx
  · exact (if_pos ⟨k, (lowestPressed_some.mp hk).1⟩).symm
  · have hup : ¬∃ k, s.key k = true := fun ⟨k, hk⟩ =>
      Bool.false_ne_true ((lowestPressed_none.mp hnone k).symm.trans hk)
    rw [if_neg hup]
    exact BitVec.add_sub_cancel s.pc 2

/-- The table of R25 for a word that decodes, row by row; the last row is every instruction that does not write `PC`. -/
theorem pc_of_exec (hd : decode w = .ok i) (hx : exec i (s.latch w) = .next t) : t.pc = pcAfter s w := by
  rw [pcAfter, hd]
  cases i with
  | ret =>
    obtain ⟨-, rfl⟩ := exec_ret_next_inv hx
    rfl
  | call nnn =>
    obtain ⟨-, rfl⟩ := exec_call_next_inv hx
    rfl
  | jp nnn =>
    obtain rfl := Host.Outcome.next.inj hx
    rfl
  | jpV0 nnn =>
    obtain rfl := Host.Outcome.next.inj hx
    exact jumpTarget_eq_ofNat nnn (s.v 0)
  | seImm | seReg =>
    obtain rfl := Host.Outcome.next.inj hx
    exact skipIf_latch_beq_pc s w _ _
  | sneImm | sneReg  =>
    obtain rfl := Host.Outcome.next.inj hx
    exact skipIf_latch_bne_pc s w _ _
  | skp x =>
    obtain rfl := exec_skp_next_inv hx
    exact skipIf_latch_pc s w _
  | sknp x =>
    obtain rfl := exec_sknp_next_inv hx
    exact skipIf_latch_not_pc s w _
  | ldVxK x => exact pc_of_exec_ldVxK hx
  | _ => exact (effect_of_exec hx).pc_eq.resolve_right (by simp [Instr.WritesPc])

/-- Settles O36: `pc_of_exec`, and `PC + 2` for the words that do not decode. -/
theorem pcAfterEveryTick : Obligations.PcAfterEveryTick := by
  intro s t w hf h hrun
  obtain ⟨u, hc, rfl⟩ := completed_of_step hf h hrun
  change u.pc = pcAfter s w
  cases hc with
  | executed hd hx => exact pc_of_exec hd hx
  | unrecognized hd =>
    rw [pcAfter, hd]
    rfl

/-! ### Faults and phases (R40, R223, R229) -/

/-- Settles O37: only `takeFault` ends a step in phase `Faulted`, and that phase admits no tick. -/
theorem faultingTickIsUndone : Obligations.FaultingTickIsUndone := by
  refine ⟨fun s t k p h hphase => ?faulted, fun s k hp hf => step_of_fetch_error hp hf⟩
  obtain ⟨-, ⟨k', hk, rfl⟩ | ⟨w, u, -, -, rfl⟩⟩ := step_faulted_or_completed h
  · obtain ⟨rfl, rfl⟩ := Phase.faulted.inj hphase
    exact ⟨hk, rfl, rfl, step_of_not_admitsTick (by simp [Phase.admitsTick])⟩
  · exact absurd hphase (by simp)

/-- Under the default policies the condition of no model fault holds (R229). -/
theorem not_raisable_of_default_policies (hoob : s.params.oob = .wrap) (hstack : s.params.stack = .wrap)
    (hkey : s.params.key = .lowNibble) (k : FaultKind) : ¬k.Raisable s := by
  cases k <;> simp [FaultKind.Raisable, hoob, hstack, hkey]

/-- Settles O38: a fault needs a condition that the default policies exclude. -/
theorem defaultPoliciesNeverFault : Obligations.DefaultPoliciesNeverFault := by
  intro s hoob hstack hkey
  have hnone := not_raisable_of_default_policies hoob hstack hkey
  refine ⟨fun i => (exec_cases i s).resolve_right fun ⟨k, _, hk⟩ => hnone k hk, fun hp => ?step⟩
  obtain ⟨t, h⟩ := step_total hp
  obtain ⟨-, ⟨k, hk, -⟩ | ⟨w, u, -, -, rfl⟩⟩ := step_faulted_or_completed h
  · exact absurd hk (hnone k)
  · exact ⟨u.endTick, h, rfl⟩

/-- Settles O39: `step_total` where a tick is admitted, `step_of_not_admitsTick` elsewhere. -/
theorem ticksRunOnlyInBootReadyRun : Obligations.TicksRunOnlyInBootReadyRun := by
  intro s
  refine ⟨⟨fun hp => step_total (admitsTick_iff.mpr hp), fun ⟨t, h⟩ => ?admits⟩, fun t h => ?phase, fun hp => ?stops⟩
  case admits => exact admitsTick_iff.mp (step_faulted_or_completed h).1
  case phase =>
    obtain ⟨-, ⟨k, -, rfl⟩ | ⟨w, u, -, -, rfl⟩⟩ := step_faulted_or_completed h
    · exact .inr ⟨k, rfl⟩
    · exact .inl rfl
  case stops =>
    apply step_of_not_admitsTick
    obtain hp | ⟨k, p, hp⟩ := hp <;> simp [hp, Phase.admitsTick]

/-- A completed tick leaves what no instruction writes, and the latch is the word it fetched. -/
theorem Completed.frame {u : State} (hc : Completed s w u) : u.keys = s.keys ∧ u.params = s.params ∧ u.op = w := by
  cases hc with
  | executed hd hx =>
    obtain ⟨hkeys, hop, -, hparams, -⟩ := (effect_of_exec hx).frame
    exact ⟨hkeys, hparams, hop⟩
  | unrecognized => exact ⟨rfl, rfl, rfl⟩

/-- Settles O42: a fault undoes the tick, and a completed tick has `Completed.frame`. -/
theorem stepKeepsKeypadAndParameters : Obligations.StepKeepsKeypadAndParameters := by
  intro s t h
  obtain ⟨-, ⟨k, -, rfl⟩ | ⟨w, u, hf, hc, rfl⟩⟩ := step_faulted_or_completed h
  · exact ⟨rfl, rfl, fun hrun => absurd hrun (by simp)⟩
  · obtain ⟨hkeys, hparams, hop⟩ := hc.frame
    exact ⟨hkeys, hparams, fun _ => hf.trans (congrArg Except.ok hop.symm)⟩

/-! ### An Fx0A with no key pressed (R236, R262) -/

/-- The state after a blocked tick that ran word `w`. -/
def blockedTick (s : State) (w : Word) : State :=
  { s with op := w, dt := State.countDown s.dt, st := State.countDown s.st, phase := .run, event := none,
           ticks := s.ticks + 1 }

theorem step_of_blocked {x : Reg} (hp : s.phase.admitsTick = true) (hkeys : ∀ k, s.key k = false)
    (hf : s.fetch = .ok w) (hd : decode w = .ok (.ldVxK x)) : step s = .next (blockedTick s w) := by
  have hx : exec (.ldVxK x) (s.latch w) = .next ((s.latch w).setPc ((s.latch w).pc - 2)) :=
    exec_ldVxK_of_not_pressed (s := s.latch w) (lowestPressed_none.mpr hkeys) x
  have hback : (s.latch w).pc - 2 = s.pc := BitVec.add_sub_cancel s.pc 2
  rw [step_of_exec_next hp hf hd hx, hback, endTick_eq_record, latch_eq_record]
  rfl

theorem fetch_blockedTick (s : State) (w : Word) : (blockedTick s w).fetch = s.fetch := rfl

theorem run_succ_of_step {M : Host.Core} {s t : M.State} (h : M.step s = .next t) (n : Nat) :
    M.run (n + 1) s = M.run n t := by
  rw [Host.Core.run, h]

/-- Settles O40: a blocked tick leaves the fetched word, the keypad and the phase's leave to tick, so the next one is
blocked as well. -/
theorem blockedOnKeyKeepsStateAndTimersRun : Obligations.BlockedOnKeyKeepsStateAndTimersRun := by
  intro n
  induction n with
  | zero =>
    intro s w x hp hkeys hf hd
    have hrun := run_succ_of_step (M := core) (step_of_blocked hp hkeys hf hd) 0
    exact ⟨blockedTick s w, hrun, State.countDown_toNat s.dt, State.countDown_toNat s.st, rfl⟩
  | succ n ih =>
    intro s w x hp hkeys hf hd
    obtain ⟨t, hrun, hdt, hst, ht⟩ := ih (blockedTick s w) w x rfl hkeys ((fetch_blockedTick s w).trans hf) hd
    have hdt1 : (blockedTick s w).dt.toNat = s.dt.toNat - 1 := State.countDown_toNat s.dt
    have hst1 : (blockedTick s w).st.toNat = s.st.toNat - 1 := State.countDown_toNat s.st
    refine ⟨t, (run_succ_of_step (M := core) (step_of_blocked hp hkeys hf hd) (n + 1)).trans hrun, ?_, ?_, ht⟩
    · omega
    · omega

end Sys2Proof.Machine
end

section
/-! The invariant (R29, R36, R41, R223): every step keeps it, LoadROM and the keypad write keep it, and so it holds of
every state the host can bring the machine to (R233). -/

namespace Sys2Proof.Machine

variable {s t : State} {w : Word} {i : Instr} {k : FaultKind} {params : Params}

/-! ### What the invariant depends on -/

/-- A fault's condition reads the parameters and `DEPTH` only (R223). -/
theorem raisable_congr (hparams : t.params = s.params) (hdepth : t.depth = s.depth) : k.Raisable t ↔ k.Raisable s := by
  cases k <;> simp only [FaultKind.Raisable, hparams, hdepth]

/-- The invariant but for the recorded fault reads memory, `SP`, `DEPTH` and the parameters only. -/
theorem State.Inv.congr (h : s.Inv) (hmem : t.mem = s.mem) (hsp : t.sp = s.sp) (hdepth : t.depth = s.depth)
    (hparams : t.params = s.params) (hfaulted : ∀ k p, t.phase = .faulted k p → p = t.pc ∧ k.Raisable t) : t.Inv where
  memory := by rw [hmem, hparams]; exact h.memory
  depthBound := hdepth ▸ h.depthBound
  depthIsSp := by rw [hsp, hdepth, hparams]; exact h.depthIsSp
  depthUnkept := by rw [hdepth, hparams]; exact h.depthUnkept
  faulted := hfaulted

/-- In a phase that is not `Faulted`, no fault is recorded. -/
theorem not_faulted_of_admitsTick (hp : s.phase.admitsTick = true) (p : Word) : s.phase ≠ .faulted k p := by
  intro hfault
  simp [hfault, Phase.admitsTick] at hp

/-! ### Calls and returns keep `DEPTH` in step with `SP` -/

/-- A move of `SP` and `DEPTH` alone keeps the invariant if it keeps them in step under `STACK_POLICY = fault` and
leaves `DEPTH` under `wrap`. -/
theorem State.Inv.of_counted (h : s.Inv) {d : Nat} (hmem : t.mem = s.mem) (hparams : t.params = s.params)
    (hdepth : t.depth = if s.params.stack = .fault then d else s.depth)
    (hcount : s.params.stack = .fault → d ≤ 16 ∧ t.sp = BitVec.ofNat 4 d)
    (hfaulted : ∀ k p, t.phase = .faulted k p → p = t.pc ∧ k.Raisable t) : t.Inv := by
  refine ⟨?memory, ?bound, fun hfault => ?isSp, fun hwrap => ?unkept, hfaulted⟩
  case memory => rw [hmem, hparams]; exact h.memory
  case bound =>
    rw [hdepth]
    split
    next hfault => exact (hcount hfault).1
    next => exact h.depthBound
  case isSp =>
    rw [hparams] at hfault
    rw [hdepth, if_pos hfault, (hcount hfault).2]
  case unkept =>
    rw [hparams] at hwrap
    rw [hdepth, if_neg (by simp [hwrap]), h.depthUnkept hwrap]

/-- One call more is one `SP` more, mod 16 (R122). -/
theorem ofNat_succ_sp (d : Nat) : BitVec.ofNat 4 d + 1 = BitVec.ofNat 4 (d + 1) := (BitVec.ofNat_add d 1).symm

/-- One call less is one `SP` less, mod 16 (R120). -/
theorem ofNat_pred_sp {d : Nat} (hd : d ≠ 0) : BitVec.ofNat 4 d - 1 = BitVec.ofNat 4 (d - 1) := by
  obtain ⟨e, rfl⟩ := Nat.exists_eq_succ_of_ne_zero hd
  rw [Nat.succ_sub_one, ← ofNat_succ_sp]
  exact BitVec.add_sub_cancel _ 1

/-! ### The execute step, the step, and reset -/

/-- An instruction that answers a next state keeps the invariant, in a phase that records no fault. -/
theorem Effect.inv (he : Effect s i t) (h : s.Inv) (hphase : ∀ k p, s.phase ≠ .faulted k p) : t.Inv := by
  have hfaulted : ∀ k p, t.phase = .faulted k p → p = t.pc ∧ k.Raisable t := by
    obtain ⟨-, -, hkept, -⟩ := he.frame
    exact fun k p hk => absurd (hkept.symm.trans hk) (hphase k p)
  cases he with
  | memory m hw hwf => exact ⟨hwf h.memory, h.depthBound, h.depthIsSp, h.depthUnkept, hfaulted⟩
  | call nnn hover =>
    refine h.of_counted rfl rfl rfl (fun hfault => ⟨?_, ?_⟩) hfaulted
    · have hbound : s.depth ≤ 16 := h.depthBound
      have hroom : s.depth ≠ 16 := fun h16 => hover ⟨hfault, h16⟩
      omega
    · exact (congrArg (· + 1) (h.depthIsSp hfault)).trans (ofNat_succ_sp s.depth)
  | ret hunder =>
    refine h.of_counted rfl rfl rfl (fun hfault => ⟨?_, ?_⟩) hfaulted
    · exact (Nat.sub_le s.depth 1).trans h.depthBound
    · exact (congrArg (· - 1) (h.depthIsSp hfault)).trans (ofNat_pred_sp fun h0 => hunder ⟨hfault, h0⟩)
  | _ => exact h.congr rfl rfl rfl rfl hfaulted

/-- A completed tick keeps the invariant. -/
theorem Completed.inv {u : State} (hc : Completed s w u) (h : s.Inv) (hp : s.phase.admitsTick = true) :
    u.endTick.Inv := by
  have hphase : ∀ k p, (s.latch w).phase ≠ .faulted k p := fun k p => not_faulted_of_admitsTick hp p
  have hlatch : (s.latch w).Inv := h.congr rfl rfl rfl rfl fun k p hk => absurd hk (hphase k p)
  have hu : u.Inv := by
    cases hc with
    | executed hd hx => exact (effect_of_exec hx).inv hlatch hphase
    | unrecognized hd => exact hlatch.congr rfl rfl rfl rfl fun k p hk => absurd hk (hphase k p)
  exact hu.congr rfl rfl rfl rfl fun k p hk => by simp at hk

/-- Taking a fault whose condition holds keeps the invariant: the phase records it with the address of the tick. -/
theorem inv_takeFault (h : s.Inv) (hk : k.Raisable s) : (s.takeFault k).Inv :=
  h.congr rfl rfl rfl rfl fun k' p hphase => by
    obtain ⟨rfl, rfl⟩ := Phase.faulted.inj hphase
    exact ⟨rfl, (raisable_congr rfl rfl).mpr hk⟩

/-- Settles O43: `inv_takeFault` for a faulting tick, `Completed.inv` for the others. -/
theorem stepKeepsTheInvariant : Obligations.StepKeepsTheInvariant := by
  intro s t h hstep
  obtain ⟨hp, ⟨k, hk, rfl⟩ | ⟨w, u, -, hc, rfl⟩⟩ := step_faulted_or_completed hstep
  · exact inv_takeFault h hk
  · exact hc.inv h hp

theorem inv_resetWith (params : Params) : (State.resetWith params).Inv where
  memory := rfl
  depthBound := Nat.zero_le _
  depthIsSp := fun _ => rfl
  depthUnkept := fun _ => rfl
  faulted := fun _ _ hphase => Phase.noConfusion hphase

/-- Settles O44: `State.reset` is one of the reset states. -/
theorem resetMeetsTheInvariant : Obligations.ResetMeetsTheInvariant :=
  ⟨inv_resetWith defaultParams, inv_resetWith⟩

/-! ### The host's moves (R233, R252-R255) -/

/-- The state after a load that succeeded (R252). -/
def loadedRom (s : State) (bytes : List Byte) : State :=
  (s.setMem (s.mem.writeList s.params.font Config.romBase bytes)).setPhase .ready

theorem loadRom_of_fits {readable : Bool} {bytes : List Byte} (hboot : s.phase = .boot)
    (hfits : readable = true ∧ bytes.length ≤ 3584) :
    loadRom readable bytes s = .next (.success, loadedRom s bytes) := by
  rw [loadRom, Config.romMax, if_pos hboot, if_pos hfits, loadedRom]

theorem loadRom_of_not_fits {readable : Bool} {bytes : List Byte} (hboot : s.phase = .boot)
    (hfits : ¬(readable = true ∧ bytes.length ≤ 3584)) :
    loadRom readable bytes s = .next (.romLoadError, s.setPhase .loadFailed) := by
  rw [loadRom, Config.romMax, if_pos hboot, if_neg hfits]

theorem loadRom_of_not_boot {readable : Bool} {bytes : List Byte} (hboot : s.phase ≠ .boot) :
    loadRom readable bytes s = .refused .loadRomOutsideBoot := if_neg hboot

/-- What a LoadROM that the host may perform leaves: the bytes from 0x200 on, or a failed load (R252, R253). -/
theorem loadRom_cases {readable : Bool} {bytes : List Byte} {r : LoadResult}
    (h : loadRom readable bytes s = .next (r, t)) :
    s.phase = .boot ∧ (bytes.length ≤ 3584 ∧ t = loadedRom s bytes ∨ t = s.setPhase .loadFailed) := by
  by_cases hboot : s.phase = .boot
  · refine ⟨hboot, ?_⟩
    by_cases hfits : readable = true ∧ bytes.length ≤ 3584
    · rw [loadRom_of_fits hboot hfits] at h
      exact .inl ⟨hfits.2, (Prod.mk.inj (Host.Outcome.next.inj h)).2.symm⟩
    · rw [loadRom_of_not_fits hboot hfits] at h
      exact .inr (Prod.mk.inj (Host.Outcome.next.inj h)).2.symm
  · simp [loadRom_of_not_boot hboot] at h

/-- A ROM that fits keeps memory canonical. -/
theorem wf_loadedRom {bytes : List Byte} (hwf : s.mem.wf s.params.font = true) (hlen : bytes.length ≤ 3584) :
    (loadedRom s bytes).mem.wf s.params.font = true :=
  Memory.wf_writeList bytes hwf (by simp only [Config.romBase, Config.memSize]; omega)

theorem inv_loadedRom {bytes : List Byte} (h : s.Inv) (hlen : bytes.length ≤ 3584) : (loadedRom s bytes).Inv where
  memory := wf_loadedRom h.memory hlen
  depthBound := h.depthBound
  depthIsSp := h.depthIsSp
  depthUnkept := h.depthUnkept
  faulted := fun _ _ hphase => Phase.noConfusion hphase

/-- Settles O51: the loaded bytes by `Memory.read_writeList`. -/
theorem loadRomStoresBytesOrFails : Obligations.LoadRomStoresBytesOrFails := by
  intro readable b s hwf
  refine ⟨fun hboot hread hlen => ?loaded, fun hboot h => loadRom_of_not_fits hboot fun ⟨hread, hlen⟩ => ?failed,
    fun hboot => loadRom_of_not_boot hboot⟩
  case failed =>
    obtain hunread | hlong := h
    · exact Bool.false_ne_true (hunread.symm.trans hread)
    · omega
  have hfit : Config.romBase + b.length ≤ Config.memSize := by
    simp only [Config.romBase, Config.memSize]
    omega
  have hbyte (a : Nat) := Memory.read_writeList b hwf hfit a
  refine ⟨loadedRom s b, loadRom_of_fits hboot ⟨hread, hlen⟩, rfl, fun i hi => ?stored, fun a ha => ?kept, rfl,
    wf_loadedRom hwf hlen⟩
  case stored =>
    refine (hbyte (0x200 + i)).trans ((dif_pos ⟨Nat.le_add_right _ i, Nat.add_lt_add_left hi _⟩).trans ?_)
    simp only [Config.romBase, Nat.add_sub_cancel_left]
  case kept => exact (hbyte a).trans (dif_neg ha)

/-- What holds of every state the host can bring the machine to: with the invariant, memory is as reset left it until a
ROM was loaded or a tick ran. -/
structure Reached (params : Params) (s : State) : Prop where
  inv : s.Inv
  params_eq : s.params = params
  memory : s.phase = .boot ∨ s.phase = .loadFailed → SameMemory (State.resetWith params) s

theorem reached_resetWith (params : Params) : Reached params (State.resetWith params) :=
  ⟨inv_resetWith params, rfl, fun _ _ => rfl⟩

theorem reached_of_loadRom (h : Reached params s) {readable : Bool} {bytes : List Byte} {r : LoadResult}
    (hload : loadRom readable bytes s = .next (r, t)) : Reached params t := by
  obtain ⟨hboot, ⟨hlen, rfl⟩ | rfl⟩ := loadRom_cases hload
  · exact ⟨inv_loadedRom h.inv hlen, h.params_eq, fun hp => by simp [loadedRom] at hp⟩
  · exact ⟨h.inv.congr rfl rfl rfl rfl fun k p hk => by simp at hk, h.params_eq, fun _ => h.memory (.inl hboot)⟩

theorem reached_of_writeKeypad (h : Reached params s) (keys : Keypad) : Reached params (writeKeypad keys s) :=
  ⟨h.inv.congr rfl rfl rfl rfl fun k p hk => by
      obtain ⟨hpc, hkr⟩ := h.inv.faulted k p hk
      exact ⟨hpc, (raisable_congr rfl rfl).mpr hkr⟩, h.params_eq, h.memory⟩

/-- A step ends in `Run` or `Faulted`, so it owes nothing of the memory. -/
theorem reached_of_step (h : Reached params s) (hstep : step s = .next t) : Reached params t := by
  obtain ⟨-, hparams, -⟩ := stepKeepsKeypadAndParameters s t hstep
  refine ⟨stepKeepsTheInvariant s t h.inv hstep, hparams.trans h.params_eq, fun hp => ?_⟩
  obtain ⟨-, hends, -⟩ := ticksRunOnlyInBootReadyRun s
  obtain hrun | ⟨k, hk⟩ := hends t hstep
  · simp [hrun] at hp
  · simp [hk] at hp

theorem reached_of_hostMove {m : HostMove} (h : Reached params s) (hmove : hostMove m s = .next t) :
    Reached params t := by
  cases m with
  | tick => exact reached_of_step h hmove
  | writeKeypad keys =>
    obtain rfl := Host.Outcome.next.inj hmove
    exact reached_of_writeKeypad h keys
  | loadRom readable bytes =>
    rw [hostMove] at hmove
    split at hmove
    next r u hload =>
      obtain rfl := Host.Outcome.next.inj hmove
      exact reached_of_loadRom h hload
    next => exact absurd hmove (by simp)
    next => exact absurd hmove (by simp)

/-- Settles O45: `Reached` holds at reset and every move keeps it. -/
theorem reachableStatesMeetTheInvariant : Obligations.ReachableStatesMeetTheInvariant := by
  intro params s hs
  have h : Reached params s := by
    induction hs with
    | reset => exact reached_resetWith params
    | move m hs hmove ih => exact reached_of_hostMove ih hmove
  exact ⟨h.inv, h.params_eq, fun hp => h.memory (.inr hp)⟩

end Sys2Proof.Machine
end

section
/-! Memory (R50, R52, R57, R65): the primitives, the canonical form, and a word placed where the next fetch reads. -/

namespace Sys2Proof.Machine

variable {s t : State}

/-! ### MemRead and MemWrite (R52) -/

theorem memRead_of_inRange {a : Word} (h : s.outOfRange a = false) : s.memRead a = .ok (s.byteAt (State.cellOf a)) := by
  simp [State.memRead, h]

theorem memRead_of_outOfRange {a : Word} (h : s.outOfRange a = true) : s.memRead a = .error (.memOutOfRange a) :=
  if_pos h

theorem memWrite_of_inRange {a : Word} (h : s.outOfRange a = false) (b : Byte) :
    s.memWrite a b = .ok (s.setMem (s.mem.write s.params.font (State.cellOf a) b)) := by
  simp [State.memWrite, h]

theorem memWrite_of_outOfRange {a : Word} (h : s.outOfRange a = true) (b : Byte) :
    s.memWrite a b = .error (.memOutOfRange a) := if_pos h

/-- The byte at an address after a write to canonical memory (R57). -/
theorem byteAt_setMem_write (hwf : s.mem.wf s.params.font = true) (a c : Nat) (b : Byte) :
    (s.setMem (s.mem.write s.params.font a b)).byteAt c = if c = a then b else s.byteAt c :=
  Memory.read_write hwf a c b

/-- Settles O46: `outOfRange` decides between the two clauses, and a write is read back by `byteAt_setMem_write`. -/
theorem memoryPrimitives : Obligations.MemoryPrimitives := by
  intro s a b hwf
  refine ⟨fun h => ?inRange, fun hfault ha => ?outOfRange⟩
  case inRange =>
    have hin : s.outOfRange a = false := Bool.eq_false_iff.mpr fun hout => h (outOfRange_iff.mp hout)
    exact ⟨memRead_of_inRange hin, _, memWrite_of_inRange hin b, (byteAt_setMem_write hwf _ _ b).trans (if_pos rfl),
      fun c hc => (byteAt_setMem_write hwf _ c b).trans (if_neg hc), rfl, Memory.wf_write hwf (cellOf_lt a) b⟩
  case outOfRange =>
    have hout : s.outOfRange a = true := outOfRange_iff.mpr ⟨hfault, ha⟩
    exact ⟨memRead_of_outOfRange hout, memWrite_of_outOfRange hout b⟩

/-! ### Canonical memories -/

namespace Memory

variable {font : Font}

theorem read_cons_self (a : Nat) (v : Byte) (m : Memory) : read font ((a, v) :: m) a = v := if_pos rfl

theorem read_cons_of_ne {a c : Nat} (h : c ≠ a) (v : Byte) (m : Memory) : read font ((a, v) :: m) c = read font m c :=
  if_neg h

/-- A canonical memory differs at its first listed address from any that lists only higher ones. -/
theorem read_head_ne {lo lo' a : Nat} {v : Byte} {m n : Memory} (hm : wfFrom font lo ((a, v) :: m) = true)
    (hn : wfFrom font lo' n = true) (ha : a < lo') : read font ((a, v) :: m) a ≠ read font n a := by
  obtain ⟨-, -, hv, -⟩ := wfFrom_cons.mp hm
  rwa [read_cons_self, read_below hn ha]

/-- A canonical memory lists no address below its first. -/
theorem wfFrom_head {lo a : Nat} {v : Byte} {m : Memory} (h : wfFrom font lo ((a, v) :: m) = true) :
    wfFrom font a ((a, v) :: m) = true := by
  obtain ⟨-, hrest⟩ := wfFrom_cons.mp h
  exact wfFrom_cons.mpr ⟨le_rfl, hrest⟩

/-- The first addresses of two canonical memories with the same bytes are the same. -/
theorem head_le_of_read_eq {lo lo' a b : Nat} {v w : Byte} {m n : Memory} (hm : wfFrom font lo ((a, v) :: m) = true)
    (hn : wfFrom font lo' ((b, w) :: n) = true)
    (hread : ∀ c < Config.memSize, read font ((a, v) :: m) c = read font ((b, w) :: n) c) : b ≤ a := by
  obtain ⟨-, ha, -⟩ := wfFrom_cons.mp hm
  exact Nat.le_of_not_lt fun hlt => read_head_ne hm (wfFrom_head hn) hlt (hread a ha)

/-- Canonical memories with the same bytes are the same list, entry by entry. -/
theorem eq_of_read_eq : ∀ {m n : Memory} {lo : Nat}, wfFrom font lo m = true → wfFrom font lo n = true →
    (∀ c < Config.memSize, read font m c = read font n c) → m = n
  | [], [], _, _, _, _ => rfl
  | (a, v) :: m, [], _, hm, _, hread => by
    obtain ⟨-, ha, -⟩ := wfFrom_cons.mp hm
    exact absurd (hread a ha) (read_head_ne hm (lo' := a + 1) rfl (Nat.lt_succ_self a))
  | [], (b, w) :: n, _, _, hn, hread => by
    obtain ⟨-, hb, -⟩ := wfFrom_cons.mp hn
    exact absurd (hread b hb).symm (read_head_ne hn (lo' := b + 1) rfl (Nat.lt_succ_self b))
  | (a, v) :: m, (b, w) :: n, _, hm, hn, hread => by
    obtain rfl : a = b := le_antisymm (head_le_of_read_eq hn hm fun c hc => (hread c hc).symm)
      (head_le_of_read_eq hm hn hread)
    obtain ⟨-, ha, -, hm'⟩ := wfFrom_cons.mp hm
    obtain ⟨-, -, -, hn'⟩ := wfFrom_cons.mp hn
    have hvw : v = w := by simpa only [read_cons_self] using hread a ha
    have htail : ∀ c < Config.memSize, read font m c = read font n c := by
      intro c hc
      by_cases hca : c = a
      · rw [hca, read_below hm' (Nat.lt_succ_self a), read_below hn' (Nat.lt_succ_self a)]
      · simpa only [read_cons_of_ne hca] using hread c hc
    rw [hvw, eq_of_read_eq hm' hn' htail]

end Memory

/-- Settles O47: `Memory.eq_of_read_eq` from address 0 on. -/
theorem canonicalMemoryIsDeterminedByItsBytes : Obligations.CanonicalMemoryIsDeterminedByItsBytes :=
  fun _ _ _ hm hn hread => Memory.eq_of_read_eq hm hn hread

/-! ### A word placed at `PC` (R65) -/

/-- The two bytes of a word are distinct cells, so each is read where it was placed. -/
theorem byteAt_storeFetchWord (hwf : s.mem.wf s.params.font = true) (w : Word) :
    (s.storeFetchWord w).byteAt (State.cellOf s.pc) = highByte w ∧
      (s.storeFetchWord w).byteAt (State.cellOf (s.pc + 1)) = lowByte w := by
  have hne : State.cellOf s.pc ≠ State.cellOf (s.pc + 1) := fun h =>
    absurd (cellOf_offset_inj (j := 0) (k := 1) (by decide) (by decide) ((congrArg _ (offsetAddr_zero s.pc)).trans h))
      (by decide)
  have hwf1 : (s.mem.write s.params.font (State.cellOf s.pc) (highByte w)).wf s.params.font = true :=
    Memory.wf_write hwf (cellOf_lt s.pc) _
  constructor
  · exact (Memory.read_write hwf1 _ _ _).trans ((if_neg hne).trans ((Memory.read_write hwf _ _ _).trans (if_pos rfl)))
  · exact (Memory.read_write hwf1 _ _ _).trans (if_pos rfl)

/-- The fetch after the placement of a word reads it, with no fence between. -/
theorem fetch_storeFetchWord (hwf : s.mem.wf s.params.font = true) (hacc : Accessible s s.pc 2) (w : Word) :
    (s.storeFetchWord w).fetch = .ok w := by
  obtain ⟨hhigh, hlow⟩ := byteAt_storeFetchWord hwf w
  have hf := fetch_ok (s := s.storeFetchWord w) hacc
  change _ = Except.ok (wordOfBytes ((s.storeFetchWord w).byteAt (State.cellOf s.pc))
    ((s.storeFetchWord w).byteAt (State.cellOf (s.pc + 1)))) at hf
  rw [hf, hhigh, hlow, wordOfBytes_highByte_lowByte]

/-- A number decodes as the table word it stands for (R53). -/
theorem decodeTableWord_eq_some_iff (nbits w : Nat) (i : Instr) :
    decodeTableWord nbits w = some i ↔ decode (tableWord nbits w) = .ok i := by
  rw [decodeTableWord, decodeBytes_word]
  cases decode (tableWord nbits w) with
  | ok j => simp [Except.map]
  | error e => simp [Except.map]

theorem tableWord_toNat {w : Nat} (hw : w < 65536) : (tableWord 16 w).toNat = w := by
  rw [tableWord, BitVec.toNat_ofNat, Nat.mod_mod]
  exact Nat.mod_eq_of_lt hw

/-- Settles O48: the word fetched is `tableWord`. -/
theorem storedWordIsFetchedNext : Obligations.StoredWordIsFetchedNext := by
  intro s nbits w hwf hacc
  refine ⟨tableWord nbits w, fetch_storeFetchWord hwf hacc _, fun hw hbits => ?number,
    decodeTableWord_eq_some_iff nbits w⟩
  case number => rw [hbits, tableWord_toNat hw]

end Sys2Proof.Machine
end

section
/-! The host's view (R10, R36, R233, R254): the default parameters, the first tick, the video read and the keypad write,
and the parameter that no rule reads. -/

namespace Sys2Proof.Machine

/-- Settles O50: the policies by definition, the font by reading all 80 bytes. -/
theorem resetHasTheDefaultParameters : Obligations.ResetHasTheDefaultParameters := by
  refine ⟨rfl, rfl, rfl, ?font⟩
  case font => decide

/-- Rows of `m` cells laid end to end: cell `x` of row `y` is at `y * m + x`. -/
theorem getElem?_flatMap_toList {α : Type} {m : Nat} (rows : List (Vector α m)) {x : Nat} (hx : x < m) : ∀ y,
    (rows.flatMap Vector.toList)[y * m + x]? = rows[y]?.map fun row => row[x] := by
  induction rows with
  | nil => intro y; rfl
  | cons row rows ih =>
    intro y
    rw [List.flatMap_cons]
    cases y with
    | zero =>
      rw [Nat.zero_mul, Nat.zero_add, List.getElem?_append_left (by simpa using hx)]
      simp [hx]
    | succ y =>
      have hlen : (y + 1) * m + x = row.toList.length + (y * m + x) := by
        rw [Vector.length_toList, Nat.succ_mul]
        omega
      rw [hlen, List.getElem?_append_right (Nat.le_add_right _ _), Nat.add_sub_cancel_left, ih]
      rfl

theorem length_readVideo (s : State) : (readVideo s).length = 2048 := by
  simp [readVideo]

theorem getElem_readVideo (s : State) (y : Fin 32) (x : Fin 64) :
    (readVideo s)[y.val * 64 + x.val]? = some (Video.pixel s.video y x) := by
  rw [readVideo, getElem?_flatMap_toList _ x.isLt, Video.pixel]
  simp

/-- Settles O53: the read by `getElem_readVideo`, the write by its definition. -/
theorem hostReadsVideoRowMajorAndWritesKeys : Obligations.HostReadsVideoRowMajorAndWritesKeys :=
  fun s _ => ⟨length_readVideo s, getElem_readVideo s, fun _ => rfl, rfl⟩

end Sys2Proof.Machine
end

section
/-! What no instruction reads: the phase and `TICK_RATE` (R10, R40, D20). A state that differs in these only runs every
instruction, and every admitted tick, to the same end. -/

namespace Sys2Proof.Machine

variable {s t : State} (p : Phase) (rate : Option Nat)

/-! ### The execute step -/

/-- The same machine in another phase and under another `TICK_RATE`. -/
def State.retag (s : State) : State := (s.setPhase p).setTickRate rate

/-- An answer with its state retagged; a stop is as it was. -/
def Answer.retag : Answer → Answer
  | .next s => .next (s.retag p rate)
  | .fault f => .fault f
  | .refused r => .refused r

theorem skipIf_retag (s : State) (c : Bool) : (s.retag p rate).skipIf c = (s.skipIf c).retag p rate := by
  cases c <;> rfl

theorem storeBytes_setPhase (bs : List Byte) : ∀ (s : State) (a : Word),
    (s.setPhase p).storeBytes a bs = (s.storeBytes a bs).map (·.setPhase p) := by
  induction bs with
  | nil => exact fun _ _ => rfl
  | cons b bs ih =>
    intro s a
    cases hout : s.outOfRange a with
    | true =>
      rw [State.storeBytes, State.storeBytes, memWrite_of_outOfRange hout,
        memWrite_of_outOfRange (s := s.setPhase p) hout]
      rfl
    | false =>
      rw [State.storeBytes, State.storeBytes, memWrite_of_inRange hout,
        memWrite_of_inRange (s := s.setPhase p) hout]
      exact ih (s.setMem _) (a + 1)

/-- A block store answers the same state, retagged. -/
theorem answerOf_storeBytes_retag (s : State) (a : Word) (bs : List Byte) :
    answerOf ((s.retag p rate).storeBytes a bs) = Answer.retag p rate (answerOf (s.storeBytes a bs)) := by
  rw [State.retag, storeBytes_setTickRate, storeBytes_setPhase]
  cases s.storeBytes a bs <;> rfl

theorem loadedRegs_retag (s : State) (x : Reg) : loadedRegs (s.retag p rate) x = (loadedRegs s x).retag p rate := by
  have hregs : (loadedRegs (s.retag p rate) x).regs = ((loadedRegs s x).retag p rate).regs :=
    State.regs_ext fun r => (loadedRegs_v (s.retag p rate) x r).trans (loadedRegs_v s x r).symm
  rw [loadedRegs_frame (s.retag p rate), hregs, loadedRegs_frame s]
  rfl

/-- No instruction reads the phase or `TICK_RATE`, and none writes them. -/
theorem exec_retag (i : Instr) (s : State) : exec i (s.retag p rate) = Answer.retag p rate (exec i s) := by
  cases i with
  | seImm | sneImm | seReg | sneReg => exact congrArg Host.Outcome.next (skipIf_retag p rate s _)
  | skp x =>
    obtain hsel | ⟨k, hsel⟩ := keySel_cases s x
    · rw [exec_skp_of_keySel_ok hsel, exec_skp_of_keySel_ok (s := s.retag p rate) hsel, skipIf_retag]
      rfl
    · rw [exec_skp_of_keySel_error hsel, exec_skp_of_keySel_error (s := s.retag p rate) hsel]
      rfl
  | sknp x =>
    obtain hsel | ⟨k, hsel⟩ := keySel_cases s x
    · rw [exec_sknp_of_keySel_ok hsel, exec_sknp_of_keySel_ok (s := s.retag p rate) hsel, skipIf_retag]
      rfl
    · rw [exec_sknp_of_keySel_error hsel, exec_sknp_of_keySel_error (s := s.retag p rate) hsel]
      rfl
  | ldVxK x =>
    cases h : lowestPressed s with
    | some k =>
      rw [exec_ldVxK_of_pressed h, exec_ldVxK_of_pressed (s := s.retag p rate) h]
      rfl
    | none =>
      rw [exec_ldVxK_of_not_pressed h, exec_ldVxK_of_not_pressed (s := s.retag p rate) h]
      rfl
  | drw x y n =>
    obtain hacc | ⟨k, hk⟩ := accessible_or_first s s.index n
    · rw [exec_drw_of_accessible hacc, exec_drw_of_accessible (s := s.retag p rate) hacc]
      rfl
    · rw [exec_drw_of_firstOutOfRange hk, exec_drw_of_firstOutOfRange (s := s.retag p rate) hk]
      rfl
  | ldMem x =>
    obtain hacc | ⟨k, hk⟩ := accessible_or_first s s.index (x.val + 1)
    · rw [exec_ldMem_of_accessible hacc, exec_ldMem_of_accessible (s := s.retag p rate) hacc, loadedRegs_retag]
      rfl
    · rw [exec_ldMem_of_firstOutOfRange hk, exec_ldMem_of_firstOutOfRange (s := s.retag p rate) hk]
      rfl
  | ldB x => exact answerOf_storeBytes_retag p rate s _ _
  | stMem x => exact answerOf_storeBytes_retag p rate s _ _
  | call nnn =>
    by_cases h : s.params.stack = .fault ∧ s.depth = 16
    · rw [exec_call_of_overflow h, exec_call_of_overflow (s := s.retag p rate) h]
      rfl
    · rw [exec_call_of_not_overflow h, exec_call_of_not_overflow (s := s.retag p rate) h]
      rfl
  | ret =>
    by_cases h : s.params.stack = .fault ∧ s.depth = 0
    · rw [exec_ret_of_underflow h, exec_ret_of_underflow (s := s.retag p rate) h]
      rfl
    · rw [exec_ret_of_not_underflow h, exec_ret_of_not_underflow (s := s.retag p rate) h]
      rfl
  | _ => rfl

/-! ### The step -/

variable {p}

/-- The phase is set again at the end of every tick, so an admitted tick depends on neither. -/
theorem step_retag (hp : p.admitsTick = true) (hs : s.phase.admitsTick = true) :
    step (s.retag p rate) = Answer.setTickRate rate (step s) := by
  have hfetch : (s.retag p rate).fetch = s.fetch := fetch_setTickRate (s.setPhase p) rate
  have hp' : (s.retag p rate).phase.admitsTick = true := hp
  obtain ⟨w, hf⟩ | ⟨k, hf, -⟩ := fetch_cases s
  · cases hd : decode w with
    | error e =>
      rw [step_of_decode_error hs hf hd, step_of_decode_error hp' (hfetch.trans hf) hd]
      rfl
    | ok i =>
      have hx := exec_retag p rate i (s.latch w)
      obtain ⟨u, hu⟩ | ⟨k, hu, -⟩ := exec_cases i (s.latch w) <;> rw [hu] at hx
      · rw [step_of_exec_next hs hf hd hu, step_of_exec_next hp' (hfetch.trans hf) hd hx]
        rfl
      · rw [step_of_exec_raised hs hf hd hu, step_of_exec_raised hp' (hfetch.trans hf) hd hx]
        rfl
  · rw [step_of_fetch_error hs hf, step_of_fetch_error hp' (hfetch.trans hf)]
    rfl

/-- Settles O52: an empty ROM changes the phase only, and the step keeps `TICK_RATE`. -/
theorem bootTickIsAsAfterEmptyRom : Obligations.BootTickIsAsAfterEmptyRom := by
  intro s hboot
  refine ⟨s.retag .ready s.params.tickRate, loadRom_of_fits hboot ⟨rfl, Nat.zero_le _⟩, ?same⟩
  have hs : s.phase.admitsTick = true := admitsTick_iff.mpr (.inl hboot)
  obtain ⟨t, ht⟩ := step_total hs
  obtain ⟨-, hparams, -⟩ := stepKeepsKeypadAndParameters s t ht
  rw [step_retag _ rfl hs, ht, ← hparams]
  rfl

/-- Settles O54: `step_retag` for an admitted tick; every other move names no parameter but FONT. -/
theorem noRuleReadsTheTickRate : Obligations.NoRuleReadsTheTickRate := by
  intro m s rate
  cases m with
  | writeKeypad keys => rfl
  | tick =>
    by_cases hs : s.phase.admitsTick = true
    · exact step_retag rate hs hs
    · change step (s.setTickRate rate) = Answer.setTickRate rate (step s)
      rw [step_of_not_admitsTick hs, step_of_not_admitsTick (s := s.setTickRate rate) hs]
      rfl
  | loadRom readable bytes =>
    by_cases hboot : s.phase = .boot
    · by_cases hfits : readable = true ∧ bytes.length ≤ 3584
      · rw [hostMove, hostMove, loadRom_of_fits hboot hfits, loadRom_of_fits (s := s.setTickRate rate) hboot hfits]
        rfl
      · rw [hostMove, hostMove, loadRom_of_not_fits hboot hfits,
          loadRom_of_not_fits (s := s.setTickRate rate) hboot hfits]
        rfl
    · rw [hostMove, hostMove, loadRom_of_not_boot hboot, loadRom_of_not_boot (s := s.setTickRate rate) hboot]
      rfl

end Sys2Proof.Machine
end

section
/-! A Dxyn run twice (R104): the second draw undoes the first, and collides where the first turned a pixel on. -/

namespace Sys2Proof.Machine

variable {s u : State} {x y : Reg} {n : Nat}

theorem flagByte_eq_one_iff (c : Bool) : flagByte c = 1 ↔ c = true := by
  cases c <;> decide

theorem flagByte_eq_zero_iff (c : Bool) : flagByte c = 0 ↔ ¬c = true := by
  cases c <;> decide

/-- The sprite depends on `I`, the two coordinates and memory only. -/
theorem spriteBit_congr (hindex : u.index = s.index) (hx : u.v x = s.v x) (hy : u.v y = s.v y) (hmem : SameMemory s u)
    (py : Fin 32) (px : Fin 64) : SpriteBit u x y n py px ↔ SpriteBit s x y n py px := by
  simp only [SpriteBit, hindex, hx, hy, hmem _]

/-- Inverting the same pixels twice gives the old screen. -/
theorem drawnSprite_twice_video (hn : n < 16) (hvideo : u.video = (drawnSprite s x y n).1)
    (hsprite : ∀ py px, SpriteBit u x y n py px ↔ SpriteBit s x y n py px) : (drawnSprite u x y n).1 = s.video := by
  refine Video.ext_pixel fun py px => Bool.eq_iff_iff.mpr ?_
  rw [drawnSprite_pixel_iff u x y hn, hvideo, drawnSprite_pixel_iff s x y hn, hsprite]
  tauto

/-- The second draw collides where the first turned a pixel on (R101, R103). -/
theorem drawnSprite_twice_collision_iff (hn : n < 16) (hvideo : u.video = (drawnSprite s x y n).1)
    (hsprite : ∀ py px, SpriteBit u x y n py px ↔ SpriteBit s x y n py px) :
    (drawnSprite u x y n).2 = true ↔ ∃ py px, SpriteBit s x y n py px ∧ Video.pixel s.video py px = false := by
  rw [drawnSprite_collision_iff u x y hn]
  refine exists_congr fun py => exists_congr fun px => ?_
  rw [hvideo, drawnSprite_pixel_iff s x y hn, hsprite, ← Bool.not_eq_true]
  tauto

/-- Settles O8: both draws are `drawnSprite`, of the same sprite. -/
theorem drawingTwiceRestoresTheScreen : Obligations.DrawingTwiceRestoresTheScreen := by
  intro x y n s hn hacc
  refine ⟨_, exec_drw_of_accessible hacc x y, fun u hvideo hparams hindex hx hy hmem => ?second⟩
  have hsprite := spriteBit_congr (n := n) hindex hx hy hmem
  have haccu : Accessible u u.index n := by rwa [Accessible, hparams, hindex]
  have hcoll := drawnSprite_twice_collision_iff hn hvideo hsprite
  refine ⟨_, exec_drw_of_accessible haccu x y, drawnSprite_twice_video hn hvideo hsprite, ?_⟩
  rw [setV_v_self, flagByte_eq_one_iff, flagByte_eq_zero_iff, hcoll]
  refine ⟨em _, Iff.rfl, fun hoff => ?offBefore, fun hblank ⟨py, px, hbit, _⟩ => hblank py px hbit⟩
  exact exists_congr fun py => exists_congr fun px => and_iff_left_of_imp (hoff py px)

end Sys2Proof.Machine
end

section
/-! Calls and returns together (R30, R123). -/

namespace Sys2Proof.Machine

variable {s t u : State} {nnn : Addr12}

/-! ### One call and its return -/

/-- What a call that answers a next state leaves for the return (R122). -/
theorem call_next_spec (hx : exec (.call nnn) s = .next t) : t.sp = s.sp + 1 ∧ t.params = s.params ∧
    (s.params.stack = .fault → t.depth = s.depth + 1) ∧
    ∀ j, t.stackAt j = if j = s.sp + 1 then s.pc else s.stackAt j := by
  obtain ⟨-, rfl⟩ := exec_call_next_inv hx
  exact ⟨rfl, rfl, fun hfault => if_pos hfault, push_stackAt s⟩

/-- A return with the call's `SP`, `DEPTH` and entry goes back to the address after the call and to the old `SP` and
`DEPTH` (R123). -/
theorem ret_of_call (hx : exec (.call nnn) s = .next t) (hsp : u.sp = t.sp) (hentry : u.stackAt t.sp = s.pc)
    (hdepth : s.params.stack = .fault → u.depth = t.depth) (hparams : u.params = s.params) :
    ∃ w, exec .ret u = .next w ∧ w.pc = s.pc ∧ w.sp = s.sp ∧ w.stack = u.stack ∧ w.params = s.params ∧
      (s.params.stack = .fault → w.depth = s.depth) := by
  obtain ⟨htsp, -, htdepth, -⟩ := call_next_spec hx
  have hroom : ¬(u.params.stack = .fault ∧ u.depth = 0) := by
    rintro ⟨hfault, h0⟩
    rw [hparams] at hfault
    rw [hdepth hfault, htdepth hfault] at h0
    exact Nat.succ_ne_zero _ h0
  refine ⟨_, exec_ret_of_not_underflow hroom, ?pc, ?sp, rfl, hparams, fun hfault => ?depth⟩
  case pc => exact (congrArg u.stackAt hsp).trans hentry
  case sp => exact (congrArg (· - 1) (hsp.trans htsp)).trans (BitVec.add_sub_cancel s.sp 1)
  case depth =>
    change (if u.params.stack = .fault then u.depth - 1 else u.depth) = s.depth
    rw [hparams, if_pos hfault, hdepth hfault, htdepth hfault, Nat.add_sub_cancel]

/-- Settles O11: `ret_of_call`; the return clears no entry. -/
theorem callThenReturnRoundTrip : Obligations.CallThenReturnRoundTrip := by
  intro nnn s t u hx hsp hstack hdepth hparams
  obtain ⟨htsp, htparams, -, htstack⟩ := call_next_spec hx
  have hentry : t.stackAt (s.sp + 1) = s.pc := (htstack _).trans (if_pos rfl)
  have hustack (j : BitVec 4) : u.stackAt j = t.stackAt j := by simp only [State.stackAt, hstack]
  obtain ⟨w, hw, hpc, hwsp, hwstack, -, hwdepth⟩ := ret_of_call hx hsp (by rw [hustack, htsp, hentry])
    (fun _ => hdepth) (hparams.trans htparams)
  refine ⟨w, hw, hpc, hwsp, hwdepth, ?_⟩
  have hwu : w.stackAt (s.sp + 1) = u.stackAt (s.sp + 1) := by simp only [State.stackAt, hwstack]
  rw [hwu, hustack, hentry]

/-! ### Nested calls -/

/-- One more return after a sequence of them. -/
theorem returnsTo_concat {w : Word} : ∀ {ws : List Word} {s : State}, ReturnsTo ws s u → exec .ret u = .next t →
    t.pc = w → ReturnsTo (ws ++ [w]) s t
  | [], _, rfl, hret, hpc => ⟨t, hret, hpc, rfl⟩
  | _ :: _, _, ⟨v, hv, hvpc, hrest⟩, hret, hpc => ⟨v, hv, hvpc, returnsTo_concat hrest hret hpc⟩

/-- The entry `k` places above `j` is another one, for `k` in 1..15. -/
theorem sp_ne_add {k : Nat} (hpos : 1 ≤ k) (hk : k ≤ 15) (j : BitVec 4) : j ≠ j + BitVec.ofNat 4 k := by
  intro h
  have h0 := congrArg BitVec.toNat h
  simp only [BitVec.toNat_add, BitVec.toNat_ofNat] at h0
  omega

/-- The next call pushes one place further up. -/
theorem sp_add_succ (j : BitVec 4) (k : Nat) : j + 1 + BitVec.ofNat 4 k = j + BitVec.ofNat 4 (k + 1) := by
  rw [BitVec.add_assoc, ← ofNat_succ_sp, BitVec.add_comm 1]

/-- The state `u` after nested calls from `s`, as many as `n`, and their returns: `SP`, the parameters and `DEPTH` are
as before the calls, and so is every entry but the `n` above `SP`. -/
structure Returned (n : Nat) (s u : State) : Prop where
  sp : u.sp = s.sp
  params : u.params = s.params
  depth : s.params.stack = .fault → u.depth = s.depth
  stackAt : ∀ j, (∀ k, 1 ≤ k → k ≤ n → j ≠ s.sp + BitVec.ofNat 4 k) → u.stackAt j = s.stackAt j

/-- One more call outside them: what they leave of the stack holds its return address, because they pushed to the at
most 15 entries above it. -/
theorem Returned.ret_of_outer_call {n : Nat} {c v : State} {w : Word} (hv : Returned n c v) (hn : n ≤ 15)
    (hcall : exec (.call nnn) (s.setPc w) = .next c) :
    ∃ u, exec .ret v = .next u ∧ u.pc = w ∧ Returned (n + 1) s u := by
  obtain ⟨hcsp, hcparams, -, hcstack⟩ := call_next_spec hcall
  have hentry : v.stackAt c.sp = w := by
    rw [hv.stackAt c.sp fun k hpos hk => sp_ne_add hpos (hk.trans hn) c.sp, hcstack, hcsp, if_pos rfl, State.setPc_pc]
  obtain ⟨u, hret, hpc, hsp, hstack, hparams, hdepth⟩ := ret_of_call hcall hv.sp hentry
    (fun hfault => hv.depth (hcparams ▸ hfault)) (hv.params.trans hcparams)
  refine ⟨u, hret, hpc, hsp, hparams, hdepth, fun j hj => ?entries⟩
  have huv : u.stackAt j = v.stackAt j := by simp only [State.stackAt, hstack]
  have hvc : v.stackAt j = c.stackAt j := hv.stackAt j fun k hpos hk => by
    rw [hcsp, sp_add_succ]
    exact hj (k + 1) (Nat.le_add_left 1 k) (Nat.succ_le_succ hk)
  rw [huv, hvc, hcstack]
  exact if_neg (hj 1 le_rfl (Nat.le_add_left 1 n))

/-- Up to 16 nested calls and their returns, by induction on the calls from the outermost in. -/
theorem nestedCalls_return (nnn : Addr12) (ws : List Word) : ∀ s : State, ws.length ≤ 16 →
    (s.params.stack = .fault → s.depth + ws.length ≤ 16) →
    ∃ t u, nestedCalls nnn ws s = .next t ∧ ReturnsTo ws.reverse t u ∧ Returned ws.length s u := by
  induction ws with
  | nil => exact fun s _ _ => ⟨s, s, rfl, rfl, rfl, rfl, fun _ => rfl, fun _ _ => rfl⟩
  | cons w ws ih =>
    intro s hlen hroom
    rw [List.length_cons] at hlen hroom
    have hnot : ¬((s.setPc w).params.stack = .fault ∧ (s.setPc w).depth = 16) := by
      rintro ⟨hfault, h16 : s.depth = 16⟩
      have := hroom hfault
      omega
    obtain ⟨c, hcall⟩ : ∃ c, exec (.call nnn) (s.setPc w) = .next c := ⟨_, exec_call_of_not_overflow hnot nnn⟩
    obtain ⟨-, hcparams, hcdepth, -⟩ := call_next_spec hcall
    have hcroom : c.params.stack = .fault → c.depth + ws.length ≤ 16 := fun hfault => by
      rw [hcparams] at hfault
      have := hroom hfault
      have : c.depth = s.depth + 1 := hcdepth hfault
      omega
    obtain ⟨t, v, hnested, hreturns, hv⟩ := ih c (by omega) hcroom
    obtain ⟨u, hret, hpc, hu⟩ := hv.ret_of_outer_call (by omega) hcall
    refine ⟨t, u, ?nested, ?returns, hu⟩
    case nested => rwa [nestedCalls, hcall]
    case returns =>
      rw [List.reverse_cons]
      exact returnsTo_concat hreturns hret hpc

/-- Settles O12: `nestedCalls_return`, of which the statement keeps `SP` and `DEPTH`. -/
theorem sixteenNestedCallsReturn : Obligations.SixteenNestedCallsReturn := by
  intro nnn ws s hlen hroom
  obtain ⟨t, u, hnested, hreturns, hu⟩ := nestedCalls_return nnn ws s hlen hroom
  exact ⟨t, u, hnested, hreturns, hu.sp, hu.depth⟩

end Sys2Proof.Machine
end

section
/-! The table of R163: the results when an 8xy_ instruction names VF. -/

namespace Sys2Proof.Machine

/-- The three columns of a row of R163's table, for another register `z`: `x` is VF, `y` is VF, both are. -/
def FlagRow (mk : Reg → Reg → Instr) (onlyX : Nat → Nat → Nat) (onlyY : Nat → Nat → Nat × Nat) (both : Nat → Nat) :
    Prop :=
  ∀ (z : Reg) (s : State), z ≠ VF →
    (∃ t, exec (mk VF z) s = .next t ∧ (t.v VF).toNat = onlyX (s.v VF).toNat (s.v z).toNat) ∧
    (∃ t, exec (mk z VF) s = .next t ∧ ((t.v z).toNat, (t.v VF).toNat) = onlyY (s.v z).toNat (s.v VF).toNat) ∧
    (∃ t, exec (mk VF VF) s = .next t ∧ (t.v VF).toNat = both (s.v VF).toNat)

/-- The strict comparison as a number (R12). -/
def gtBit (p q : Nat) : Nat := if p > q then 1 else 0

variable {mk : Reg → Reg → Instr} {f g onlyX : Nat → Nat → Nat} {onlyY : Nat → Nat → Nat × Nat} {both : Nat → Nat}

/-- An instruction that writes no flag computes the same from VF as from any register (R152-R155). -/
theorem flagRow_of_setV {op : Byte → Byte → Byte}
    (hexec : ∀ x y s, exec (mk x y) s = .next (s.setV x (op (s.v x) (s.v y))))
    (hop : ∀ a b, (op a b).toNat = f a.toNat b.toNat) (hboth : ∀ a : Byte, f a.toNat a.toNat = both a.toNat) :
    FlagRow mk f (fun a c => (f a c, c)) both := by
  refine fun z s hz => ⟨⟨_, hexec VF z s, ?_⟩, ⟨_, hexec z VF s, ?_⟩, ⟨_, hexec VF VF s, ?_⟩⟩
  · rw [setV_v_self, hop]
  · rw [setV_v_self, setV_v_of_ne s _ hz.symm, hop]
  · rw [setV_v_self, hop, hboth]

/-- An instruction that writes the flag `g` of its old operands, then `f` of the registers read after that: an operand
that is VF is the new flag (R157-R160, D7). -/
theorem flagRow_of_flagThenReg {flag op : Byte → Byte → Byte}
    (hexec : ∀ x y s, exec (mk x y) s = .next (setFlagThen (flag (s.v x) (s.v y)) x
      (op ((s.setV VF (flag (s.v x) (s.v y))).v x) ((s.setV VF (flag (s.v x) (s.v y))).v y)) s))
    (hflag : ∀ a b, (flag a b).toNat = g a.toNat b.toNat) (hop : ∀ a b, (op a b).toNat = f a.toNat b.toNat)
    (hX : ∀ c b : Byte, f (g c.toNat b.toNat) b.toNat = onlyX c.toNat b.toNat)
    (hboth : ∀ c : Byte, f (g c.toNat c.toNat) (g c.toNat c.toNat) = both c.toNat) :
    FlagRow mk onlyX (fun a c => (f a (g a c), g a c)) both := by
  refine fun z s hz => ⟨⟨_, hexec VF z s, ?_⟩, ⟨_, hexec z VF s, ?_⟩, ⟨_, hexec VF VF s, ?_⟩⟩
  · rw [setFlagThen_v_self, hop, setV_v_self, setV_v_of_ne s _ hz, hflag, hX]
  · rw [setFlagThen_v_self, setFlagThen_v_flag _ _ _ hz, hop, setV_v_self, setV_v_of_ne s _ hz, hflag]
  · rw [setFlagThen_v_self, hop, setV_v_self, hflag, hboth]

/-! ### The rows of the table -/

theorem flagRow_ldReg : FlagRow .ldReg (fun _ b => b) (fun _ f => (f, f)) (fun f => f) :=
  flagRow_of_setV (op := fun _ b => b) (fun _ _ _ => rfl) (fun _ _ => rfl) fun _ => rfl

theorem flagRow_orReg : FlagRow .orReg (fun f b => f ||| b) (fun a f => (a ||| f, f)) (fun f => f) :=
  flagRow_of_setV (fun _ _ _ => rfl) BitVec.toNat_or fun f => Nat.or_self f.toNat

theorem flagRow_andReg : FlagRow .andReg (fun f b => f &&& b) (fun a f => (a &&& f, f)) (fun f => f) :=
  flagRow_of_setV (fun _ _ _ => rfl) BitVec.toNat_and fun f => Nat.and_self f.toNat

theorem flagRow_xorReg : FlagRow .xorReg (fun f b => f ^^^ b) (fun a f => (a ^^^ f, f)) (fun _ => 0) :=
  flagRow_of_setV (fun _ _ _ => rfl) BitVec.toNat_xor fun f => Nat.xor_self f.toNat

/-- 8xy4 takes its sum before it writes the flag (R156). -/
theorem flagRow_addReg : FlagRow .addReg (fun f b => (f + b) % 256)
    (fun a f => ((a + f) % 256, gtBit (a + f) 255)) (fun f => 2 * f % 256) := by
  refine fun z s hz => ⟨⟨_, exec_addReg VF z s, ?_⟩, ⟨_, exec_addReg z VF s, ?_⟩, ⟨_, exec_addReg VF VF s, ?_⟩⟩
  · rw [setFlagThen_v_self, BitVec.toNat_add]
  · rw [setFlagThen_v_self, setFlagThen_v_flag _ _ _ hz, BitVec.toNat_add, carryFlag_toNat]
    rfl
  · rw [setFlagThen_v_self, BitVec.toNat_add]
    exact congrArg (· % 256) (Nat.two_mul _).symm

theorem flagRow_subReg : FlagRow .subReg (fun f b => (gtBit f b + 256 - b) % 256)
    (fun a f => ((a + 256 - gtBit a f) % 256, gtBit a f)) (fun _ => 0) :=
  flagRow_of_flagThenReg (f := fun a b => (a + 256 - b) % 256) exec_subReg greaterFlag_toNat sub_byte_toNat
    (fun _ _ => rfl) fun _ => by simp

theorem flagRow_subnReg : FlagRow .subnReg (fun f b => (b + 256 - gtBit b f) % 256)
    (fun a f => ((gtBit f a + 256 - a) % 256, gtBit f a)) (fun _ => 0) :=
  flagRow_of_flagThenReg (f := fun a b => (b + 256 - a) % 256) (g := fun a b => gtBit b a) (op := fun a b => b - a)
    exec_subnReg (fun a b => greaterFlag_toNat b a) (fun a b => sub_byte_toNat b a) (fun _ _ => rfl) fun _ => by simp

theorem flagRow_shr : FlagRow .shr (fun _ _ => 0) (fun a _ => (a / 2, a % 2)) (fun _ => 0) :=
  flagRow_of_flagThenReg (f := fun a _ => a / 2) (g := fun a _ => a % 2) (op := fun a _ => a >>> 1) exec_shr
    (fun a _ => rightBitFlag_toNat a) (fun a _ => shiftRight_one_toNat a) (fun _ _ => by omega) fun _ => by omega

theorem flagRow_shl : FlagRow .shl (fun f _ => 2 * (f / 128)) (fun a _ => (2 * a % 256, a / 128))
    (fun f => 2 * (f / 128)) :=
  flagRow_of_flagThenReg (f := fun a _ => 2 * a % 256) (g := fun a _ => a / 128) (op := fun a _ => a <<< 1) exec_shl
    (fun a _ => leftBitFlag_toNat a) (fun a _ => shiftLeft_one_toNat a) (fun _ _ => by omega) fun _ => by omega

/-- Settles O23: the table, row by row. -/
theorem flagRegisterAsOperand : Obligations.FlagRegisterAsOperand :=
  ⟨flagRow_ldReg, flagRow_orReg, flagRow_andReg, flagRow_xorReg, flagRow_addReg, flagRow_subReg, flagRow_shr,
    flagRow_subnReg, flagRow_shl⟩

end Sys2Proof.Machine
end

section
/-! The instructions that read a key, a timer or a random byte (R161, R203-R206). -/

namespace Sys2Proof.Machine

/-- Settles O24: the answer is `setV` of the masked byte, whatever the byte. -/
theorem randomByteIsMasked : Obligations.RandomByteIsMasked := by
  refine ⟨decodesAs_family fun op hfam => ?word, fun x kk s => ⟨_, rfl, rfl⟩, fun rand x kk s =>
    ⟨fun b => ?bit, onlyRegs_setV s x _⟩⟩
  case word => rw [decode, hfam]; rfl
  case bit => rw [rndWith, setV_v_self, BitVec.getLsbD_and]

theorem keyByte_toNat (k : Fin 16) : (keyByte k).toNat = k.val := by
  rw [keyByte, BitVec.toNat_ofNat]
  omega

/-- Settles O30: the two answers are those for the lowest pressed key and for none. -/
theorem keyWaitStoresLowestKeyOrRepeats : Obligations.KeyWaitStoresLowestKeyOrRepeats := by
  refine ⟨decodesAs_family_fifteen rfl fun op hlow => ?word, fun x s =>
    ⟨fun k hk hlowest => ?stored, fun hnone => ?blocked⟩⟩
  case word => rw [decodeF, hlow]; rfl
  case stored =>
    refine ⟨_, exec_ldVxK_of_pressed (lowestPressed_some.mpr ⟨hk, hlowest⟩) x, ?_, onlyRegs_setV s x _⟩
    rw [setV_v_self, keyByte_toNat]
  case blocked =>
    refine ⟨_, exec_ldVxK_of_not_pressed (lowestPressed_none.mpr hnone) x, ?_, onlyPc_setPc s _⟩
    rw [State.setPc_pc, BitVec.toNat_sub, Nat.add_comm]
    rfl

/-- Settles O31: `setV`, `setDt` and `setSt`, and the timer step after them. -/
theorem timerTransfers : Obligations.TimerTransfers := by
  refine ⟨decodesAs_family_fifteen rfl fun op hlow => ?readWord, decodesAs_family_fifteen rfl fun op hlow => ?delayWord,
    decodesAs_family_fifteen rfl fun op hlow => ?soundWord, fun x s =>
      ⟨⟨s.setV x s.dt, rfl, setV_v_self s x _, onlyRegs_setV s x _, setV_v_self s x _, endTick_dt_toNat _⟩,
       ⟨s.setDt (s.v x), rfl, rfl, rfl, fun _ => rfl, endTick_dt_toNat _⟩,
       ⟨s.setSt (s.v x), rfl, rfl, rfl, fun _ => rfl, endTick_st_toNat _⟩⟩⟩
  case readWord => rw [decodeF, hlow]; rfl
  case delayWord => rw [decodeF, hlow]; rfl
  case soundWord => rw [decodeF, hlow]; rfl

end Sys2Proof.Machine
end
